-- ==== Sys2Proof/Word.lean ====
section
/-! DEFINITION. Words and bytes (spec/00_scope.md R9): a k-bit value is a `BitVec k`, unsigned, bit 0 the least significant.
`add_W` and `xor` of R10, R150 and R151 are `+` and `^^^` of `BitVec W`. -/

namespace Sys2Proof

/-- A byte is 8 bits (R9). -/
abbrev Byte := BitVec 8

/-- A word of the datapath: `W` is 32 for variants 224 and 256, 64 for 384 and 512 (R5). -/
abbrev Word (W : Nat) := BitVec W

/-- A chaining value: eight words, index 0 first (R22). -/
abbrev Chain (W : Nat) := Vector (Word W) 8

/-- A vector of sixteen words: the message words, the constants or the working vector (R27). -/
abbrev Vec16 (W : Nat) := Vector (Word W) 16

end Sys2Proof
end

