-- ==== Sys2Proof/Syntax.lean ====
section
/-! DEFINITION. The command set (spec/30_encoding.md R80, R81): three commands, one constructor per row of
spec/opcode_table.json. The operands are the fields of R88, unsigned and unscaled; their widths are the fields' widths. -/

namespace Sys2Proof

/-- The commands of the engine. -/
inductive Instr where
  /-- `INIT size`: start a new hash; `size` is CW[9:0], the digest size in bits (R82, R101). -/
  | init (size : BitVec 10)
  /-- `UPDATE len`: absorb the next `len` bytes of data-in; `len` is CW[27:0] (R83, R102). -/
  | update (len : BitVec 28)
  /-- `FINAL`: pad, return the digest, kill the engine (R84, R105). -/
  | final
deriving DecidableEq, Repr

end Sys2Proof
end

