-- ==== Sys2Proof/WellFormed.lean ====
section
/-! DEFINITION. Well-formedness. The operand widths of `Instr` leave no ill-formed command word: every value of `size` and
`len` is legal as an instruction (R82, R83; log entry 15). What can be ill-formed is the transaction a host sends, a command
with its payload: the framing of spec/70_reset_and_hazards.md R224 and spec/30_encoding.md R90. -/

namespace Sys2Proof

/-- A command with the payload bytes the host sends for it on data-in (R54, R90). -/
structure Command where
  /-- The command. -/
  instr : Instr
  /-- The bytes sent on data-in for it, first byte first. -/
  payload : List Byte
deriving DecidableEq, Repr

/-- How many payload bytes a command takes from data-in, known from the command alone (R92, R51). -/
def Instr.payloadLength : Instr → Nat
  | .init _ => 0
  | .update len => len.toNat
  | .final => 0

/-- The host sends exactly the payload the command takes: `len` bytes for `UPDATE`, none for `INIT` and `FINAL` (R224, R51). -/
def Command.wf (c : Command) : Bool := c.payload.length == c.instr.payloadLength

/-- A command sequence is well-formed when every command is (R228: every such sequence has a defined result). -/
def Command.wfAll (cs : List Command) : Bool := cs.all Command.wf

end Sys2Proof
end

