-- ==== Sys2Proof/Decode.lean ====
section
/-! DEFINITION. Decoding and encoding of command words (spec/30_encoding.md R80 to R92). A command word is one 32-bit transfer
and has no byte order (R58); decoding is total and reads no state (R92). -/

namespace Sys2Proof

/-- Why a word is no command: the three kinds of reserved encoding of R85. Each raises `InvalidCommand` (R193). -/
inductive DecodeError where
  /-- `op` is 0 or 4 to 15. -/
  | reservedOpcode
  /-- `op` is 1 and CW[27:10] is not zero. -/
  | reservedInit
  /-- `op` is 3 and CW[27:0] is not zero. -/
  | reservedFinal
deriving DecidableEq, Repr

/-- `op`, bits 31 to 28 of a command word (R80). -/
def opField (cw : BitVec 32) : BitVec 4 := cw.extractLsb' 28 4

/-- `arg`, bits 27 to 0 of a command word (R80). -/
def argField (cw : BitVec 32) : BitVec 28 := cw.extractLsb' 0 28

/-- `arg[27:10]`, which must be zero in an `INIT` (R82). -/
def initZeroField (arg : BitVec 28) : BitVec 18 := arg.extractLsb' 10 18

/-- `size`, bits 9 to 0 of `arg` (R82, R88). -/
def sizeField (arg : BitVec 28) : BitVec 10 := arg.extractLsb' 0 10

/-- The decoding procedure of R92, in its order. -/
def decode (cw : BitVec 32) : Except DecodeError Instr :=
  let op := opField cw
  let arg := argField cw
  if op = 1#4 then
    if initZeroField arg ≠ 0#18 then .error .reservedInit else .ok (.init (sizeField arg))
  else if op = 2#4 then .ok (.update arg)
  else if op = 3#4 then
    if arg ≠ 0#28 then .error .reservedFinal else .ok .final
  else .error .reservedOpcode

/-- The command word of a command: the formats of R82, R83 and R84. -/
def encode : Instr → BitVec 32
  | .init size => 1#4 ++ 0#18 ++ size
  | .update len => 2#4 ++ len
  | .final => 3#4 ++ 0#28

/-- The `match` column of the opcode table (R82, R83, R84; spec/opcode_table.json). -/
def tableMatch : Instr → BitVec 32
  | .init _ => 0x10000000#32
  | .update _ => 0x20000000#32
  | .final => 0x30000000#32

/-- The `mask` column of the opcode table (R82, R83, R84; spec/opcode_table.json). -/
def tableMask : Instr → BitVec 32
  | .init _ => 0xFFFFFC00#32
  | .update _ => 0xF0000000#32
  | .final => 0xFFFFFFFF#32

/-- The command read from a word given as a number of `nbits` bits, bit 0 the least significant, the bits above `nbits` zero:
the table's numbering is the command word's own (R80, R58), so the word goes to the decoder as it stands. None where the
decoder refuses, or where the number does not fit the one 32-bit transfer a command is. -/
def decodeTableWord (nbits w : Nat) : Option Instr :=
  let word := w % 2 ^ nbits
  if word < 2 ^ 32 then
    match decode (BitVec.ofNat 32 word) with
    | .ok i => some i
    | .error _ => none
  else none

end Sys2Proof
end

