-- ==== Sys2Proof/Config.lean ====
section
/-! DEFINITION. The configuration: the four variants, the shape of a variant's parameter row (spec/00_scope.md R5, R6, R7; the rows
are in Machine/Parameters.lean), and the free values of the model. -/

namespace Sys2Proof

/-- The four variants (R5): "exactly four named variants with fixed output sizes". -/
inductive Variant where
  | b224
  | b256
  | b384
  | b512
deriving DecidableEq, Repr

/-- The four rotation amounts of the mixing function (R158). -/
structure Rotations where
  r1 : Nat
  r2 : Nat
  r3 : Nat
  r4 : Nat
deriving DecidableEq, Repr

/-- One row of R5, a "configuration struct" over which one generic implementation runs; every table is a field of it (R6, D20). -/
structure Params (W : Nat) where
  /-- `N`, the digest length in bytes (R5, R109). -/
  digestBytes : Nat
  /-- `NR`, the number of rounds (R159). -/
  rounds : Nat
  /-- `TB`, OR-ed into the last padding byte before the length field (R135). -/
  tb : Byte
  /-- The initial chaining value (R153, R154). -/
  iv : Chain W
  /-- The round constants `C32` or `C64` (R155, R156). -/
  c : Vec16 W
  /-- The message-word permutation schedule `SIGMA`, ten rows (R157; the same table for all four variants). -/
  sigma : Vector (Vector (Fin 16) 16) 10
  /-- The rotation amounts (R158). -/
  rot : Rotations
  /-- `FLAGMASK`, XOR-ed into `v[12..15]` when the final flag is 1 (R7, R163; log entry 10). -/
  flagMask : Vector (Word W) 4
  /-- `SALT`, the four salt words the engine passes (R7, R28; log entry 10). -/
  salt : Vector (Word W) 4
  /-- `CTRUNIT`, the factor from the byte counter to the counter operand (R7, R103; log entry 10). -/
  ctrUnit : Nat
deriving DecidableEq, Repr

/-- The registers after a hardware reset during a run: "their values are unspecified" (R220, R35). Free values, one for each
reset of the run; nothing can evaluate them. That they depend on the number of the reset alone, and so agree between two engines, is
the form of the model, not of the spec (log entry 2). -/
opaque Config.resetVar : Nat → BitVec 10

@[inherit_doc Config.resetVar]
opaque Config.resetH : Nat → Vector (BitVec 64) 8

@[inherit_doc Config.resetVar]
opaque Config.resetCtr : Nat → BitVec 128

@[inherit_doc Config.resetVar]
opaque Config.resetBuf : Nat → Vector Byte 128

@[inherit_doc Config.resetVar]
opaque Config.resetBuflen : Nat → BitVec 8

/-- How many of the output events on offer the host has already taken at the moment of a reset: the spec gives no timing
(R231). A free value, cut to what the host's ready pins allow. That it depends on the number of the reset alone, so that two engines
at their `k`-th reset have the same count before the cut, is the model's choice (DESIGN CHOICE, log entry 3). -/
opaque Config.takenAtReset : Nat → Nat

/-- How many payload bytes a waiting `UPDATE` has already taken from data-in at the moment of a reset: the spec gives no
timing (R231). A free value, cut to the `len` of the `UPDATE` (R51) and to the bytes there are. It depends on the number of the reset
alone, as Config.takenAtReset does (DESIGN CHOICE, log entry 3). -/
opaque Config.payloadTakenAtReset : Nat → Nat

end Sys2Proof
end

