-- ==== Sys2Proof/Machine/Parameters.lean ====
section
/-! DEFINITION. The parameter rows of the four variants (spec/00_scope.md R5, R6, R7) and the tables of
spec/42_compression_core.md R153 to R159. The values are those the rules print; the spec marks them as supplied from general
knowledge (UNVERIFIED, log entry 11). -/

namespace Sys2Proof

/-- The digest size in bits, the value `INIT` carries and `var` holds (R21, R82). -/
def Variant.size : Variant → BitVec 10
  | .b224 => 224#10
  | .b256 => 256#10
  | .b384 => 384#10
  | .b512 => 512#10

/-- Column `W` of R5: the word width in bits. -/
def Variant.W : Variant → Nat
  | .b224 => 32
  | .b256 => 32
  | .b384 => 64
  | .b512 => 64

/-- `WB = W/8`, bytes per word (R5). -/
def wordBytes (W : Nat) : Nat := W / 8

/-- `BS = 16*WB`, bytes per block: 64 or 128 (R5). -/
def blockBytes (W : Nat) : Nat := 16 * wordBytes W

/-- `LF = 2*WB`, bytes of the length field: 8 or 16 (R5). -/
def lengthFieldBytes (W : Nat) : Nat := 2 * wordBytes W

/-- `PADLIM = BS - LF`, the offset of the length field inside a block: 56 or 112 (R5). -/
def padLimit (W : Nat) : Nat := blockBytes W - lengthFieldBytes W

/-- `IV256` (R153). -/
def iv256 : Chain 32 := #v[0x6A09E667, 0xBB67AE85, 0x3C6EF372, 0xA54FF53A, 0x510E527F, 0x9B05688C, 0x1F83D9AB, 0x5BE0CD19]

/-- `IV224` (R153). -/
def iv224 : Chain 32 := #v[0xC1059ED8, 0x367CD507, 0x3070DD17, 0xF70E5939, 0xFFC00B31, 0x68581511, 0x64F98FA7, 0xBEFA4FA4]

/-- `IV512` (R154). -/
def iv512 : Chain 64 := #v[
  0x6A09E667F3BCC908, 0xBB67AE8584CAA73B, 0x3C6EF372FE94F82B, 0xA54FF53A5F1D36F1,
  0x510E527FADE682D1, 0x9B05688C2B3E6C1F, 0x1F83D9ABFB41BD6B, 0x5BE0CD19137E2179]

/-- `IV384` (R154). -/
def iv384 : Chain 64 := #v[
  0xCBBB9D5DC1059ED8, 0x629A292A367CD507, 0x9159015A3070DD17, 0x152FECD8F70E5939,
  0x67332667FFC00B31, 0x8EB44A8768581511, 0xDB0C2E0D64F98FA7, 0x47B5481DBEFA4FA4]

/-- `C32` (R155). -/
def c32 : Vec16 32 := #v[
  0x243F6A88, 0x85A308D3, 0x13198A2E, 0x03707344, 0xA4093822, 0x299F31D0, 0x082EFA98, 0xEC4E6C89,
  0x452821E6, 0x38D01377, 0xBE5466CF, 0x34E90C6C, 0xC0AC29B7, 0xC97C50DD, 0x3F84D5B5, 0xB5470917]

/-- `C64` (R156). -/
def c64 : Vec16 64 := #v[
  0x243F6A8885A308D3, 0x13198A2E03707344, 0xA4093822299F31D0, 0x082EFA98EC4E6C89,
  0x452821E638D01377, 0xBE5466CF34E90C6C, 0xC0AC29B7C97C50DD, 0x3F84D5B5B5470917,
  0x9216D5D98979FB1B, 0xD1310BA698DFB5AC, 0x2FFD72DBD01ADFB7, 0xB8E1AFED6A267E96,
  0xBA7C9045F12C7F99, 0x24A19947B3916CF7, 0x0801F2E2858EFC16, 0x636920D871574E69]

/-- The permutation schedule `SIGMA[0..9][0..15]` (R157). -/
def sigma : Vector (Vector (Fin 16) 16) 10 := #v[
  #v[ 0,  1,  2,  3,  4,  5,  6,  7,  8,  9, 10, 11, 12, 13, 14, 15],
  #v[14, 10,  4,  8,  9, 15, 13,  6,  1, 12,  0,  2, 11,  7,  5,  3],
  #v[11,  8, 12,  0,  5,  2, 15, 13, 10, 14,  3,  6,  7,  1,  9,  4],
  #v[ 7,  9,  3,  1, 13, 12, 11, 14,  2,  6,  5, 10,  4,  0, 15,  8],
  #v[ 9,  0,  5,  7,  2,  4, 10, 15, 14,  1, 11, 12,  6,  8,  3, 13],
  #v[ 2, 12,  6, 10,  0, 11,  8,  3,  4, 13,  7,  5, 15, 14,  1,  9],
  #v[12,  5,  1, 15, 14, 13,  4, 10,  0,  7,  6,  3,  9,  2,  8, 11],
  #v[13, 11,  7, 14, 12,  1,  3,  9,  5,  0, 15,  4,  8,  6,  2, 10],
  #v[ 6, 15, 14,  9, 11,  3,  0,  8, 12,  2, 13,  7,  1,  4, 10,  5],
  #v[10,  2,  8,  4,  7,  6,  1,  5, 15, 11,  9, 14,  3, 12, 13,  0]]

/-- Rotation amounts for `W = 32` (R158). -/
def rot32 : Rotations := ⟨16, 12, 8, 7⟩

/-- Rotation amounts for `W = 64` (R158). -/
def rot64 : Rotations := ⟨32, 25, 16, 11⟩

/-- `FLAGMASK = (0,0,0,0)` (R7, R163, conflict C4). -/
def flagMaskZero (W : Nat) : Vector (Word W) 4 := #v[0, 0, 0, 0]

/-- `SALT = 0` (R7, R28, conflict C7). -/
def saltZero (W : Nat) : Vector (Word W) 4 := #v[0, 0, 0, 0]

/-- Row 224 of R5. -/
def params224 : Params 32 := ⟨28, 14, 0, iv224, c32, sigma, rot32, flagMaskZero 32, saltZero 32, 8⟩

/-- Row 256 of R5. -/
def params256 : Params 32 := ⟨32, 14, 1, iv256, c32, sigma, rot32, flagMaskZero 32, saltZero 32, 8⟩

/-- Row 384 of R5. -/
def params384 : Params 64 := ⟨48, 16, 0, iv384, c64, sigma, rot64, flagMaskZero 64, saltZero 64, 8⟩

/-- Row 512 of R5. -/
def params512 : Params 64 := ⟨64, 16, 1, iv512, c64, sigma, rot64, flagMaskZero 64, saltZero 64, 8⟩

/-- The parameter row of a variant (R5, R6). -/
def Variant.params : (v : Variant) → Params v.W
  | .b224 => params224
  | .b256 => params256
  | .b384 => params384
  | .b512 => params512

end Sys2Proof
end

