-- ==== Sys2Proof/Machine/State.lean ====
section
/-! DEFINITION. The state of one engine as plain data: the six registers of spec/10_state.md R20, the command in progress
(spec/70_reset_and_hazards.md R224), the four channels and the pins the host drives (spec/20_memory.md R50 to R54). -/

namespace Sys2Proof.Machine

/-- The architectural registers (R20: "exactly six registers"). Storage is sized for the larger variant; a 32-bit variant uses
the low 32 bits of each word of `H`, the low 64 bits of `ctr` and bytes 0 to 63 of `BUF`. -/
structure Regs where
  /-- Finalized flag: true is 1, the engine is dead; false is 0, it is live (R24). -/
  fin : Bool
  /-- The variant as its digest size in bits (R21). -/
  var : BitVec 10
  /-- The chaining value `H[0..7]` (R22). -/
  H : Vector (BitVec 64) 8
  /-- Message bytes already compressed (R23). -/
  ctr : BitVec 128
  /-- The block buffer (R25). -/
  BUF : Vector Byte 128
  /-- The number of valid bytes in `BUF` (R26). -/
  buflen : BitVec 8
deriving DecidableEq, Repr

/-- One transfer on an output channel. -/
inductive OutEvent where
  /-- A 16-bit word on the response channel (R52). -/
  | rsp (w : BitVec 16)
  /-- A digest byte on the data-out channel (R53). -/
  | dout (b : Byte)
deriving DecidableEq, Repr

/-- The state of one engine with its channels. -/
structure State extends Regs where
  /-- An `UPDATE len` whose command word has been taken and whose payload has not all arrived (R224). -/
  waiting : Option (BitVec 28)
  /-- The command words the host offers, next first (R50). -/
  cmd : List (BitVec 32)
  /-- The payload bytes the host offers, next first (R51). -/
  din : List Byte
  /-- The host's `rsp_ready` (R52). -/
  rspReady : Bool
  /-- The host's `dout_ready` (R53). -/
  doutReady : Bool
  /-- The reset input `rst` (R220). -/
  rst : Bool
  /-- Output the engine offers and the host has not taken, next first (R225). -/
  offer : List OutEvent
  /-- Output the host has taken, oldest first (R54). -/
  taken : List OutEvent
  /-- The MODEL's own counter of hardware resets, which selects the free values (log entry 2). -/
  resets : Nat
deriving DecidableEq, Repr

/-- Why the machine stops with a fault. Both stand for live states that no run reaches (R21, R26, R36; log entry 8). -/
inductive Fault where
  /-- Raised by `UPDATE` and `FINAL` on a live engine whose `var` is none of the four sizes: R21 says no command can put another
  value there, so the spec gives no behaviour. Safe: the model stops. -/
  | varNotAVariant
  /-- Raised by `UPDATE` and `FINAL` on a live engine whose `buflen` is not below the block size: R26 and R36 exclude it between
  commands, so the spec gives no behaviour. Safe: the model stops. -/
  | buflenNotBelowBlock
deriving DecidableEq, Repr

/-- Why the machine refuses. -/
inductive Refusal where
  /-- The instruction has no meaning yet; raised by the dispatch only, and by no arm of this model. Safe. -/
  | notModelled (mnemonic : String)
deriving DecidableEq, Repr

/-- The error causes (R190): "exactly three error causes". -/
inductive ErrorCause where
  /-- `UPDATE` or `FINAL` with `fin = 1` (R191). -/
  | invalidState
  /-- `INIT` with an unsupported size (R192). -/
  | invalidVariant
  /-- A reserved encoding (R193). -/
  | invalidCommand
deriving DecidableEq, Repr

/-- The machine right after power-up (R35, R220): `fin = 1`; the spec leaves the other five registers unspecified and the model
names 0 for each (log entry 1); no command in progress and nothing offered (R220); nothing from the host yet, its ready pins
high and `rst` released (log entry 9). -/
def State.reset : State where
  fin := true
  var := 0
  H := Vector.replicate 8 0
  ctr := 0
  BUF := Vector.replicate 128 0
  buflen := 0
  waiting := none
  cmd := []
  din := []
  rspReady := true
  doutReady := true
  rst := false
  offer := []
  taken := []
  resets := 0

end Sys2Proof.Machine
end

