-- ==== Sys2Proof/Machine/Operands.lean ====
section
/-! DEFINITION. Operand forms: the word primitives of spec/00_scope.md R10, the byte orders of spec/20_memory.md R55 to R57, the
variant an operand or register names, and the reading and writing of registers at the width of the variant (R20). -/

namespace Sys2Proof.Machine

/-- `rotr_W(x, n)` for `0 < n < W` (R10, R152). -/
def rotr {W : Nat} (x : Word W) (n : Nat) : Word W := (x >>> n) ||| (x <<< (W - n))

/-- The number a byte string stands for, its first byte the most significant (R10): `sum of b[i] * 2^(8*(len-1-i))`. -/
def beNat (b : List Byte) : Nat := b.foldl (fun acc x => acc * 256 + x.toNat) 0

/-- `be_load_W` (R10, R55). -/
def beLoad (W : Nat) (b : List Byte) : Word W := BitVec.ofNat W (beNat b)

/-- `be_store_k`: `k` bytes, the most significant first (R10, R56, R57). -/
def beStore (k : Nat) {m : Nat} (v : BitVec m) : List Byte :=
  (List.range k).map fun i => v.extractLsb' (8 * (k - 1 - i)) 8

/-- `k` zero bytes. -/
def zeros (k : Nat) : List Byte := List.replicate k 0

/-- Word `j` of a block: `be_load_W(B[j*WB .. j*WB+WB))` (R55, R161). -/
def messageWord (W : Nat) (B : List Byte) (j : Nat) : Word W :=
  beLoad W ((B.drop (j * wordBytes W)).take (wordBytes W))

/-- The sixteen message words of a block (R161). -/
def messageWords (W : Nat) (B : List Byte) : Vec16 W := Vector.ofFn fun j => messageWord W B j.val

/-- All words of a chaining value, most significant byte first, word 0 first (R57, R140). -/
def chainBytes {W : Nat} (h : Chain W) : List Byte := h.toList.flatMap fun w => beStore (wordBytes W) w

/-- The digest: the first `n` bytes of the chaining value (R57, R140). -/
def digestOf {W : Nat} (n : Nat) (h : Chain W) : List Byte := (chainBytes h).take n

/-- The variant a size names: one of 224, 256, 384 and 512, or none (R82, R88, R101, R192). -/
def variantOf (size : BitVec 10) : Option Variant :=
  if size = 224#10 then some .b224
  else if size = 256#10 then some .b256
  else if size = 384#10 then some .b384
  else if size = 512#10 then some .b512
  else none

/-- A register of `k` bits whose low `W` bits are replaced: the bits a 32-bit variant does not use keep what they held (R20;
log entry 4). -/
def mergeLow {k W : Nat} (old : BitVec k) (new : BitVec W) : BitVec k := ((old >>> W) <<< W) ||| new.setWidth k

/-- `H` at the word width of the variant (R20, R22). -/
def Regs.chain (W : Nat) (r : Regs) : Chain W := r.H.map fun x => x.setWidth W

/-- Write `H` at the word width of the variant (R20, R22). -/
def Regs.setChain {W : Nat} (h : Chain W) (r : Regs) : Regs :=
  { r with H := Vector.ofFn fun i => mergeLow r.H[i] h[i] }

/-- `ctr` at its width `2*W` (R20, R23). -/
def Regs.counter (W : Nat) (r : Regs) : BitVec (2 * W) := r.ctr.setWidth (2 * W)

/-- Write `ctr` at its width `2*W` (R20, R23). -/
def Regs.setCounter {W : Nat} (c : BitVec (2 * W)) (r : Regs) : Regs := { r with ctr := mergeLow r.ctr c }

/-- `BUF[0..buflen-1]`, the valid bytes of the buffer (R25, R68). -/
def Regs.tail (r : Regs) : List Byte := r.BUF.toList.take r.buflen.toNat

/-- `BUF[0..BS-1]`, the whole block (R68, R103). -/
def Regs.block (W : Nat) (r : Regs) : List Byte := r.BUF.toList.take (blockBytes W)

/-- `BUF[buflen] <- b`, then `buflen <- buflen + 1` (R68, R103). -/
def Regs.storeByte (b : Byte) (r : Regs) : Regs :=
  { r with BUF := r.BUF.setIfInBounds r.buflen.toNat b, buflen := r.buflen + 1 }

end Sys2Proof.Machine
end

