-- ==== Sys2Proof/Machine/Flags.lean ====
section
/-! DEFINITION. The one flag of the hardware, `fin` (spec/10_state.md R24), and the status a command reports: the response word
of spec/30_encoding.md R86 and R87. There are no condition codes, carry or sticky bits (R24, R196). -/

namespace Sys2Proof.Machine

/-- Status 0 (R87). -/
def statusOk : BitVec 4 := 0

/-- The status code of an error (R87, R190). -/
def ErrorCause.status : ErrorCause → BitVec 4
  | .invalidState => 1
  | .invalidVariant => 2
  | .invalidCommand => 3

/-- The response word `RW`: `dlen` in bits 15 to 8, zero in 7 to 4, `status` in 3 to 0 (R86). -/
def responseWord (dlen : BitVec 8) (status : BitVec 4) : BitVec 16 := dlen ++ 0#4 ++ status

/-- The response of a successful `INIT` or `UPDATE` (R86). -/
def okResponse : BitVec 16 := responseWord 0 statusOk

/-- The response of a successful `FINAL` with an `n`-byte digest: `(N << 8) | 0` (R86, R105). -/
def digestResponse (n : Nat) : BitVec 16 := responseWord (BitVec.ofNat 8 n) statusOk

/-- The response that reports an error: `dlen = 0` and the cause's code (R86, R194). -/
def errorResponse (e : ErrorCause) : BitVec 16 := responseWord 0 e.status

/-- The engine is dead (R24, R106). -/
def Regs.dead (r : Regs) : Bool := r.fin

/-- `fin <- 0`: the engine is live (R24, R101). -/
def Regs.makeLive (r : Regs) : Regs := { r with fin := false }

/-- `fin <- 1`: the engine is dead (R24, R105, R220). -/
def Regs.makeDead (r : Regs) : Regs := { r with fin := true }

/-- The parameters a live engine runs with: the variant in `var`, with `buflen` below its block size. Outside R21, R26 and R36
the spec gives no behaviour and the model stops by name (log entry 8). -/
def Regs.liveVariant (r : Regs) : Except Fault Variant :=
  match variantOf r.var with
  | none => .error .varNotAVariant
  | some v => if r.buflen.toNat < blockBytes v.W then .ok v else .error .buflenNotBelowBlock

end Sys2Proof.Machine
end

