-- ==== Sys2Proof/Machine/Channels.lean ====
section
/-! DEFINITION. The four channels (spec/20_memory.md R50 to R54): the transfers, the handshake signals seen at the pins, and what
the host can do between steps. -/

namespace Sys2Proof.Machine

/-- Replace what the host offers on the command channel. -/
def State.withCmd (ws : List (BitVec 32)) (s : State) : State := { s with cmd := ws }

/-- `n` payload bytes have left data-in, and no command is in progress any more (R51, R54). -/
def State.afterPayload (n : Nat) (s : State) : State := { s with din := s.din.drop n, waiting := none }

/-- `CmdPop`: take the next command word (R50); none while the host offers no word. -/
def State.cmdPop (s : State) : Option (BitVec 32 × State) :=
  match s.cmd with
  | [] => none
  | w :: rest => some (w, s.withCmd rest)

/-- `DinPop`, `len` times: the next `len` payload bytes in arrival order (R51, R54); none while
the host has not supplied that many (R224). -/
def State.dinPop (len : Nat) (s : State) : Option (List Byte × State) :=
  if s.din.length < len then none
  else some (s.din.take len, s.afterPayload len)

/-- `RspPush(w)` (R52). -/
def State.rspPush (w : BitVec 16) (s : State) : State := { s with offer := s.offer ++ [.rsp w] }

/-- `DoutPush(b)` for each byte of `d`, first byte first (R53). -/
def State.doutPush (d : List Byte) (s : State) : State := { s with offer := s.offer ++ d.map .dout }

/-- Whether the host's pins let an offered event be taken (R52, R53). -/
def State.accepts (s : State) : OutEvent → Bool
  | .rsp _ => s.rspReady
  | .dout _ => s.doutReady

/-- How many offered events the host takes: all up to the first its pins do not let through (R225). -/
def State.readyCount (s : State) : Nat := (s.offer.takeWhile s.accepts).length

/-- The host takes the next `n` offered events, in order (R54: "nothing is reordered within a channel"). -/
def State.hostTake (n : Nat) (s : State) : State :=
  { s with taken := s.taken ++ s.offer.take n, offer := s.offer.drop n }

/-- The host takes every offered event it is ready for (R225; log entry 6). -/
def State.drain (s : State) : State := s.hostTake s.readyCount

/-- All output of the run so far, oldest first: what has been taken, then what is on offer (R54). -/
def State.output (s : State) : List OutEvent := s.taken ++ s.offer

/-- The response words among events: the response channel (R52). -/
def responsesOf (l : List OutEvent) : List (BitVec 16) :=
  l.filterMap fun e => match e with | .rsp w => some w | .dout _ => none

/-- The digest bytes among events: the data-out channel (R53). -/
def digestBytesOf (l : List OutEvent) : List Byte :=
  l.filterMap fun e => match e with | .rsp _ => none | .dout b => some b

/-- `cmd_ready`: the engine is idle, its last response and digest taken, and `rst` released (R50, R220, R222). What `cmd_ready` is
while `rst` is asserted the spec leaves open: R220 gives the other three handshake outputs there and `cmd_ready = 1` once `rst` is
released. That it is 0, and that no command word is taken during a reset, is the model's choice (DESIGN CHOICE, log entry 17). -/
def State.cmdReady (s : State) : Bool := !s.rst && s.waiting.isNone && s.offer.isEmpty

/-- `din_ready`: an `UPDATE` is in progress and its payload has not all arrived (R51, R220, R224). -/
def State.dinReady (s : State) : Bool := !s.rst && s.waiting.isSome

/-- `rsp_valid` with `rsp_data`: the response word on offer (R52, R220). -/
def State.rspOffered (s : State) : Option (BitVec 16) :=
  if s.rst then none else match s.offer with | .rsp w :: _ => some w | _ => none

/-- `dout_valid` with `dout_data`: the digest byte on offer (R53, R220). -/
def State.doutOffered (s : State) : Option Byte :=
  if s.rst then none else match s.offer with | .dout b :: _ => some b | _ => none

/-- The host puts a command word on the command channel, after those already there (R50). -/
def State.hostCommand (w : BitVec 32) (s : State) : State := { s with cmd := s.cmd ++ [w] }

/-- The host puts payload bytes on data-in, after those already there (R51, R224: "the extra bytes wait on the channel"). -/
def State.hostPayload (b : List Byte) (s : State) : State := { s with din := s.din ++ b }

/-- The host asserts `rst` (R220). -/
def State.hostReset (s : State) : State := { s with rst := true }

/-- What the host sends for one command: a command word and its payload bytes (R54: "each a command word with its payload byte
list"). The word may be a reserved encoding. -/
structure Transaction where
  /-- The command word, for the command channel. -/
  word : BitVec 32
  /-- The payload bytes, for data-in. -/
  payload : List Byte
deriving DecidableEq, Repr

/-- The transaction of a command (R82, R83, R84, R90). -/
def transactionOf (c : Command) : Transaction := ⟨encode c.instr, c.payload⟩

/-- The host sends one transaction (R54). -/
def State.hostSend (x : Transaction) (s : State) : State := (s.hostCommand x.word).hostPayload x.payload

/-- The host sends transactions in order (R54, R63). -/
def State.hostSendAll (xs : List Transaction) (s : State) : State := xs.foldl (fun t x => t.hostSend x) s

end Sys2Proof.Machine
end

