-- ==== Sys2Proof/Machine/Compression.lean ====
section
/-! DEFINITION. The compression core, a pure function (spec/42_compression_core.md R160 to R168). -/

namespace Sys2Proof.Machine

/-- Four words of the working vector, the positions `a, b, c, d` of one application of `G` (R164). -/
structure Quad (W : Nat) where
  a : Word W
  b : Word W
  c : Word W
  d : Word W
deriving DecidableEq, Repr

/-- The eight lines of `G`, on four words and the two combined inputs `x` and `y` (R164). -/
def mix {W : Nat} (rot : Rotations) (q : Quad W) (x y : Word W) : Quad W :=
  let a := q.a + q.b + x
  let d := rotr (q.d ^^^ a) rot.r1
  let c := q.c + d
  let b := rotr (q.b ^^^ c) rot.r2
  let a := a + b + y
  let d := rotr (d ^^^ a) rot.r3
  let c := c + d
  let b := rotr (b ^^^ c) rot.r4
  ⟨a, b, c, d⟩

/-- Where one application of `G` works: its position index and its four positions (R165). -/
structure GPos where
  i : Fin 8
  a : Fin 16
  b : Fin 16
  c : Fin 16
  d : Fin 16
deriving DecidableEq, Repr

/-- Row `r mod 10` of `SIGMA` (R157, R166). -/
def sigmaRow {W : Nat} (p : Params W) (r : Nat) : Vector (Fin 16) 16 := p.sigma[r % 10]'(Nat.mod_lt r (by decide))

/-- `x = m[sg[2i]] ^ c[sg[2i+1]]` (R164). -/
def gInputX {W : Nat} (p : Params W) (m : Vec16 W) (r : Nat) (i : Fin 8) : Word W :=
  m[(sigmaRow p r)[2 * i.val]] ^^^ p.c[(sigmaRow p r)[2 * i.val + 1]]

/-- `y = m[sg[2i+1]] ^ c[sg[2i]]` (R164). -/
def gInputY {W : Nat} (p : Params W) (m : Vec16 W) (r : Nat) (i : Fin 8) : Word W :=
  m[(sigmaRow p r)[2 * i.val + 1]] ^^^ p.c[(sigmaRow p r)[2 * i.val]]

/-- `G(r, i, a, b, c, d)` on the working vector (R164). -/
def applyG {W : Nat} (p : Params W) (m : Vec16 W) (r : Nat) (v : Vec16 W) (g : GPos) : Vec16 W :=
  let o := mix p.rot ⟨v[g.a], v[g.b], v[g.c], v[g.d]⟩ (gInputX p m r g.i) (gInputY p m r g.i)
  (((v.set g.a o.a).set g.b o.b).set g.c o.c).set g.d o.d

/-- The eight applications of `G` in a round: columns, then diagonals (R165). -/
def roundSchedule : List GPos := [
  ⟨0, 0, 4, 8, 12⟩, ⟨1, 1, 5, 9, 13⟩, ⟨2, 2, 6, 10, 14⟩, ⟨3, 3, 7, 11, 15⟩,
  ⟨4, 0, 5, 10, 15⟩, ⟨5, 1, 6, 11, 12⟩, ⟨6, 2, 7, 8, 13⟩, ⟨7, 3, 4, 9, 14⟩]

/-- `Round(r)` (R165). -/
def applyRound {W : Nat} (p : Params W) (m : Vec16 W) (v : Vec16 W) (r : Nat) : Vec16 W :=
  roundSchedule.foldl (applyG p m r) v

/-- The round loop: `r` from 0 to `NR-1` in ascending order (R166). -/
def applyRounds {W : Nat} (p : Params W) (m : Vec16 W) (v : Vec16 W) : Vec16 W :=
  (List.range p.rounds).foldl (applyRound p m) v

/-- The working vector from chaining value, salt, constants and counter (R162). -/
def initWorking {W : Nat} (cs : Vec16 W) (h : Chain W) (s : Vector (Word W) 4) (t0 t1 : Word W) : Vec16 W :=
  #v[h[0], h[1], h[2], h[3], h[4], h[5], h[6], h[7],
     s[0] ^^^ cs[0], s[1] ^^^ cs[1], s[2] ^^^ cs[2], s[3] ^^^ cs[3],
     t0 ^^^ cs[4], t0 ^^^ cs[5], t1 ^^^ cs[6], t1 ^^^ cs[7]]

/-- The final flag: `v[12+k] <- v[12+k] ^ FLAGMASK[k]` when it is 1, nothing when it is 0 (R163). -/
def injectFlag {W : Nat} (mask : Vector (Word W) 4) (final : Bool) (v : Vec16 W) : Vec16 W :=
  if final then
    (((v.set 12 (v[12] ^^^ mask[0])).set 13 (v[13] ^^^ mask[1])).set 14 (v[14] ^^^ mask[2])).set 15 (v[15] ^^^ mask[3])
  else v

/-- The fold `h'[i] = h[i] ^ s[i mod 4] ^ v[i] ^ v[i+8]` (R167). -/
def foldWorking {W : Nat} (h : Chain W) (s : Vector (Word W) 4) (v : Vec16 W) : Chain W :=
  Vector.ofFn fun i => h[i] ^^^ s[i.val % 4]'(Nat.mod_lt _ (by decide)) ^^^ v[i.val] ^^^ v[i.val + 8]

/-- `Compress` (R160, R168). -/
def compress {W : Nat} (p : Params W) (h : Chain W) (B : List Byte) (t0 t1 : Word W) (final : Bool)
    (s : Vector (Word W) 4) : Chain W :=
  let m := messageWords W B
  let v := injectFlag p.flagMask final (initWorking p.c h s t0 t1)
  foldWorking h s (applyRounds p m v)

/-- `Compress` as the engine calls it: the counter operand `t` of `2*W` bits split into `t0 = t[W-1:0]` and
`t1 = t[2*W-1:W]`, and the constant salt (R103, R137, R28). -/
def compressBlock {W : Nat} (p : Params W) (h : Chain W) (B : List Byte) (t : BitVec (2 * W)) (final : Bool) : Chain W :=
  compress p h B (t.extractLsb' 0 W) (t.extractLsb' W W) final p.salt

end Sys2Proof.Machine
end

