-- ==== Sys2Proof/Machine/Padding.lean ====
section
/-! DEFINITION. The padding and finalization controller (spec/41_padding_finalizer.md R130 to R142), a pure function of the
chaining value, the byte counter and the buffered tail. -/

namespace Sys2Proof.Machine

/-- The counter operand, or the length, in bits: a count of bytes times `CTRUNIT`, modulo `2^(2*W)` (R7, R103, R131). -/
def bitCount {W : Nat} (p : Params W) (bytes : BitVec (2 * W)) : BitVec (2 * W) := BitVec.ofNat (2 * W) p.ctrUnit * bytes

/-- The total bit length `L = (8 * (ctr + n)) mod 2^(2*W)` (R131). `L` is a length in bits whatever the counter unit is. -/
def totalBits {W : Nat} (c : BitVec (2 * W)) (n : Nat) : BitVec (2 * W) := BitVec.ofNat (2 * W) 8 * (c + BitVec.ofNat (2 * W) n)

/-- The tail followed by the marker byte (R132). -/
def withMarker (tail : List Byte) : List Byte := tail ++ [0x80#8]

/-- The overflow branch is taken when the tail with its marker passes the length field's offset (R133). -/
def overflows (W : Nat) (tail : List Byte) : Bool := decide (tail.length + 1 > padLimit W)

/-- The first block of the overflow branch: tail, marker, zero bytes to the end of the block (R133). -/
def overflowBlock (W : Nat) (tail : List Byte) : List Byte := withMarker tail ++ zeros (blockBytes W - (tail.length + 1))

/-- The last block up to the length field, before `TB`: zero bytes only after an overflow block, else the tail, the marker and
zero bytes (R133). -/
def lastPrefix (W : Nat) (tail : List Byte) : List Byte :=
  if overflows W tail then zeros (padLimit W) else withMarker tail ++ zeros (padLimit W - (tail.length + 1))

/-- `P[PADLIM-1] <- P[PADLIM-1] | TB` (R135). -/
def orLastPad (W : Nat) (tb : Byte) (P : List Byte) : List Byte := P.modify (padLimit W - 1) (fun b => b ||| tb)

/-- The last block: prefix with `TB`, then the length field (R135, R136). -/
def lastBlock {W : Nat} (p : Params W) (tail : List Byte) (L : BitVec (2 * W)) : List Byte :=
  orLastPad W p.tb (lastPrefix W tail) ++ beStore (lengthFieldBytes W) L

/-- The counter operand of the last block: 0 when it holds no message bit, else `L` (R137). -/
def lastCounter (W : Nat) (tail : List Byte) (L : BitVec (2 * W)) : BitVec (2 * W) :=
  if overflows W tail then 0 else if tail.length > 0 then L else 0

/-- The chaining value the last compression starts from: after the overflow block's compression (counter `L`, `final = 0`) in the
overflow branch, else the one given (R133, R137, R138). -/
def chainBeforeLast {W : Nat} (p : Params W) (h : Chain W) (tail : List Byte) (L : BitVec (2 * W)) : Chain W :=
  if overflows W tail then compressBlock p h (overflowBlock W tail) L false else h

/-- `FinalizeFrom` (R139): the last chaining value and the digest. -/
def finalizeFrom {W : Nat} (p : Params W) (h : Chain W) (c : BitVec (2 * W)) (tail : List Byte) : Chain W × List Byte :=
  let L := totalBits c tail.length
  let h' := compressBlock p (chainBeforeLast p h tail L) (lastBlock p tail L) (lastCounter W tail L) true
  (h', digestOf p.digestBytes h')

end Sys2Proof.Machine
end

