-- ==== Sys2Proof/Machine/Ops.lean ====
section
/-! DEFINITION. The shared operations: absorbing a byte, finalizing, responding, error entry, hardware reset and placing a command
word where the next step takes it. -/

namespace Sys2Proof.Machine

/-- What `Absorb` does when the buffer is full (R103): advance the counter by `BS`, compress the block with `final = 0` and the
advanced counter in bits, empty the buffer. -/
def compressBuffer {W : Nat} (p : Params W) (r : Regs) : Regs :=
  let c := r.counter W + BitVec.ofNat (2 * W) (blockBytes W)
  let h := compressBlock p (r.chain W) (r.block W) (bitCount p c) false
  { (r.setCounter c).setChain h with buflen := 0 }

/-- `Absorb(b)` (R103). -/
def absorb {W : Nat} (p : Params W) (r : Regs) (b : Byte) : Regs :=
  let r' := r.storeByte b
  if r'.buflen.toNat = blockBytes W then compressBuffer p r' else r'

/-- `Absorb` on each payload byte in arrival order (R102). -/
def absorbAll {W : Nat} (p : Params W) (bytes : List Byte) (r : Regs) : Regs := bytes.foldl (absorb p) r

/-- What a successful `INIT` writes (R101): `var`, `H`, `ctr`, `buflen` and `fin`; the bytes of `BUF` are not cleared (R25). -/
def startHash (v : Variant) (r : Regs) : Regs :=
  ({ (r.setChain v.params.iv).setCounter (W := v.W) 0 with var := v.size, buflen := 0 } : Regs).makeLive

/-- `Finalize` (R139): the digest, and the registers with the last chaining value in `H`. -/
def finalize {W : Nat} (p : Params W) (r : Regs) : Regs × List Byte :=
  let out := finalizeFrom p (r.chain W) (r.counter W) r.tail
  (r.setChain out.1, out.2)

/-- Change the registers, leave everything else. -/
def State.withRegs (r : Regs) (s : State) : State := { s with toRegs := r }

/-- The end of a command without error and without digest: response 0x0000 (R100, R101, R102). -/
def respondOk (s : State) : State := s.rspPush okResponse

/-- The end of a successful `FINAL`: the response word, then the digest bytes (R105, R53). -/
def respondDigest (d : List Byte) (n : Nat) (s : State) : State := (s.rspPush (digestResponse n)).doutPush d

/-- TAKING AN ERROR (R194), the hardware's only exception: no register is written, one response word with `dlen = 0` and the
cause's code is pushed, nothing goes to data-out, and the engine goes on to the next command. There is no saved context, vector
or mode, and no return: "there is no return instruction and nothing to restore" (R196). -/
def raiseError (e : ErrorCause) (s : State) : State := s.rspPush (errorResponse e)

/-- An `UPDATE` whose payload has not all arrived: the command is in progress, `cmd_ready` stays 0, nothing is responded (R224). -/
def State.awaitPayload (len : BitVec 28) (s : State) : State := { s with waiting := some len }

/-- How many payload bytes a command in progress has taken when a reset abandons it: a free count, at most the `len` bytes an
`UPDATE` takes (R51); every other byte waits on the channel (R224). That the count depends on `resets` alone, and so agrees between two
engines at their `k`-th reset, is the model's choice (DESIGN CHOICE, log entry 3). -/
def State.payloadLost (s : State) : Nat :=
  match s.waiting with
  | none => 0
  | some len => min (Config.payloadTakenAtReset s.resets) len.toNat

/-- Hardware reset (R220): `fin <- 1`, the other registers unspecified (R35; free values, log entry 2); the command in progress is
abandoned without a response; nothing is offered any more; words and bytes not yet taken stay with the host, and no command word is
taken (log entry 17). How much output and payload has moved by then is free, selected by `resets` alone (DESIGN CHOICE, log entry
3). The step stands for the whole reset, from assertion to release (R8). -/
def State.hardReset (s : State) : State :=
  let t := s.hostTake (min (Config.takenAtReset s.resets) s.readyCount)
  { t with
    fin := true
    var := Config.resetVar s.resets
    H := Config.resetH s.resets
    ctr := Config.resetCtr s.resets
    BUF := Config.resetBuf s.resets
    buflen := Config.resetBuflen s.resets
    waiting := none
    din := s.din.drop s.payloadLost
    rst := false
    offer := []
    resets := s.resets + 1 }

/-- Put a word where the next step takes its command: first on the command channel, with no command in progress, `rst` released
and earlier output taken (R50; log entry 12). -/
def State.placeCommand (w : BitVec 32) (s : State) : State :=
  { s with cmd := w :: s.cmd, waiting := none, rst := false, taken := s.taken ++ s.offer, offer := [] }

end Sys2Proof.Machine
end

