-- ==== Sys2Proof/Machine/HashEngine.lean ====
section
/-! DEFINITION. The meanings of the three commands (spec/40_hash_engine.md R101, R102, R105). -/

namespace Sys2Proof.Machine

/-- `INIT size` (R101): an unsupported size raises `InvalidVariant` before any write; a legal size starts a new hash whether the
engine is live or dead. -/
def execInit (size : BitVec 10) (s : State) : Host.Outcome State Fault Refusal :=
  match variantOf size with
  | none => .next (raiseError .invalidVariant s)
  | some v => .next (respondOk (s.withRegs (startHash v s.toRegs)))

/-- `UPDATE len` (R102): the payload is taken whole, also when the engine is dead (D9); a dead engine discards it and raises
`InvalidState`, a live one absorbs it byte by byte. While the payload has not all arrived the command waits (R224). -/
def execUpdate (len : BitVec 28) (s : State) : Host.Outcome State Fault Refusal :=
  match s.dinPop len.toNat with
  | none => .next (s.awaitPayload len)
  | some (payload, t) =>
    if t.dead then .next (raiseError .invalidState t)
    else match t.liveVariant with
      | .error f => .fault f
      | .ok v => .next (respondOk (t.withRegs (absorbAll v.params payload t.toRegs)))

/-- `FINAL` (R105): a dead engine raises `InvalidState`; a live one finalizes, dies, responds `N << 8` and sends the digest. -/
def execFinal (s : State) : Host.Outcome State Fault Refusal :=
  if s.dead then .next (raiseError .invalidState s)
  else match s.liveVariant with
    | .error f => .fault f
    | .ok v =>
      .next (respondDigest (finalize v.params s.toRegs).2 v.params.digestBytes
        (s.withRegs (finalize v.params s.toRegs).1.makeDead))

end Sys2Proof.Machine
end

