-- ==== Sys2Proof/Machine/Dispatch.lean ====
section
/-! DEFINITION. The meaning of every command: one arm per constructor of Instr (spec/40_hash_engine.md R100). -/

namespace Sys2Proof.Machine

def exec (i : Instr) (s : State) : Host.Outcome State Fault Refusal :=
  match i with
  | .init size => Sys2Proof.Machine.execInit size s
  | .update len => Sys2Proof.Machine.execUpdate len s
  | .final => Sys2Proof.Machine.execFinal s

end Sys2Proof.Machine
end

