-- ==== Sys2Proof/Machine/CommandLoop.lean ====
section
/-! DEFINITION. The command loop (spec/40_hash_engine.md R100) with what surrounds a command: reset (R220), output the host has not
taken (R225), a command in progress (R224), and no command at all (R206). -/

namespace Sys2Proof.Machine

/-- Execute a command word: the command it decodes to, or `InvalidCommand` for a reserved encoding (R92, R100, R193). -/
def execWord (cw : BitVec 32) (s : State) : Host.Outcome State Fault Refusal :=
  match decode cw with
  | .error _ => .next (raiseError .invalidCommand s)
  | .ok i => exec i s

/-- Take the next command word and execute it; an engine with no command pending "is idle and holds its registers" (R100, R206). -/
def runCommand (s : State) : Host.Outcome State Fault Refusal :=
  match s.cmdPop with
  | none => .next s
  | some (cw, t) => execWord cw t

/-- Go on with the command in progress, or take the next one (R50, R224). -/
def resumeOrRun (s : State) : Host.Outcome State Fault Refusal :=
  match s.waiting with
  | some len => exec (.update len) s
  | none => runCommand s

/-- One step: a hardware reset if `rst` is asserted; else the host takes the output it is ready for, and if none is left on offer
the engine runs one whole command (R8, R50, R220, R225). -/
def commandLoop (s : State) : Host.Outcome State Fault Refusal :=
  if s.rst then .next s.hardReset
  else if s.drain.offer.isEmpty then resumeOrRun s.drain
  else .next s.drain

end Sys2Proof.Machine
end

