-- ==== Sys2Proof/Machine/Step.lean ====
section
/-! DEFINITION. One step of the machine: one whole command or one hardware reset (spec/00_scope.md R8). -/

namespace Sys2Proof.Machine

/-- The step (R100), which is `commandLoop`. -/
def step (s : State) : Host.Outcome State Fault Refusal := commandLoop s

/-- `s` with a command word placed where the next step takes it (log entry 12). The bits above `nbits` are zero. -/
def State.withFetchWord (s : State) (nbits w : Nat) : State := s.placeCommand (BitVec.ofNat 32 (w % 2 ^ nbits))

end Sys2Proof.Machine
end

