-- ==== Sys2Proof/Machine/Assembler.lean ====
section
/-! DEFINITION. The assembler lines and pseudo-instructions of spec/30_encoding.md R90 and R91, as the transactions they send.
Lines are taken parsed: their text is the host's (log entry 14). -/

namespace Sys2Proof.Machine

/-- One line of the assembler (R90, R91). -/
inductive AsmLine where
  /-- `INIT <size>`, size in decimal. -/
  | init (size : Nat)
  /-- `UPDATE <len>, <hex>`, with the bytes the hex part gives. -/
  | update (len : Nat) (bytes : List Byte)
  /-- `FINAL`. -/
  | final
  /-- `.word <hex32>`: an arbitrary word on the command channel. -/
  | word (w : BitVec 32)
  /-- `HASH <size>, <hex>`: the one-shot digest. -/
  | hash (size : Nat) (bytes : List Byte)
  /-- `RESTART`: `INIT` with the size in `var`. -/
  | restart
deriving DecidableEq, Repr

/-- The most bytes one `UPDATE` carries, `2^28 - 1` (R83). -/
def maxPayload : Nat := 268435455

/-- A payload split into pieces of at most `n` bytes, in order; one piece if it fits, also when it is empty (R91). Where a longer one is
cut the spec leaves open: that every piece but the last has exactly `n` bytes, which fixes the number of `UPDATE`s and of their
responses, is the model's choice (DESIGN CHOICE, log entry 18). The second argument bounds the number of cuts. -/
def splitPayload (n : Nat) : Nat → List Byte → List (List Byte)
  | 0, b => [b]
  | k + 1, b => if b.length ≤ n then [b] else b.take n :: splitPayload n k (b.drop n)

/-- The `UPDATE` transaction of a payload of at most `maxPayload` bytes (R90). -/
def updateTransaction (b : List Byte) : Transaction := transactionOf ⟨.update (BitVec.ofNat 28 b.length), b⟩

/-- The `INIT` transaction of a size below 1024 (R90). -/
def initTransaction (size : Nat) : Transaction := transactionOf ⟨.init (BitVec.ofNat 10 size), []⟩

/-- The `FINAL` transaction (R90). -/
def finalTransaction : Transaction := transactionOf ⟨.final, []⟩

/-- `HASH`: `INIT`, the payload in `UPDATE`s, `FINAL` (R91). -/
def hashTransactions (size : Nat) (b : List Byte) : List Transaction :=
  initTransaction size :: (splitPayload maxPayload b.length b).map updateTransaction ++ [finalTransaction]

/-- What a line sends; none for a line the syntax of R90 does not allow (a size that needs more than 10 bits, a length that is not
the number of bytes given or needs more than 28). `var` is the size register, which `RESTART` reads. -/
def assemble (var : BitVec 10) : AsmLine → Option (List Transaction)
  | .init size => if size < 1024 then some [initTransaction size] else none
  | .update len b => if len = b.length ∧ len ≤ maxPayload then some [updateTransaction b] else none
  | .final => some [finalTransaction]
  | .word w => some [⟨w, []⟩]
  | .hash size b => if size < 1024 then some (hashTransactions size b) else none
  | .restart => some [initTransaction var.toNat]

end Sys2Proof.Machine
end

