-- ==== Sys2Proof/Machine/Platform.lean ====
section
/-! DEFINITION. Several engines side by side (spec/60_exceptions.md R204): each has its own registers and channels, they share
nothing, and no engine steps another. -/

namespace Sys2Proof.Machine

/-- The engines of a platform; their number is the platform's (R204, D28). -/
abbrev Platform := List State

/-- All engines leave reset dead and identical (R204, R221). -/
def Platform.reset (n : Nat) : Platform := List.replicate n State.reset

/-- Engine `k` makes one step; a platform without engine `k` stays as it is. -/
def Platform.stepEngine (k : Nat) (engines : Platform) : Host.Outcome Platform Fault Refusal :=
  match engines[k]? with
  | none => .next engines
  | some s =>
    match step s with
    | .next t => .next (engines.set k t)
    | .fault f => .fault f
    | .refused r => .refused r

end Sys2Proof.Machine
end

