-- ==== Sys2Proof/Safety.lean ====
section
/-! DEFINITION. The terms claims are stated in: the invariant of spec/10_state.md R36, what a safe step is, when two states cannot
be told apart, the document's own formulation of `update` (spec/40_hash_engine.md R104), and the hash function the engine is to
compute (R110). -/

namespace Sys2Proof.Machine

/-- Registers of a live engine of variant `v` between commands (R36): (I1) `var` holds the size of `v`, (I2) `buflen < BS`,
(I3) `ctr` is a multiple of `BS`. -/
def Regs.LiveAs (v : Variant) (r : Regs) : Prop :=
  r.fin = false ∧ r.var = v.size ∧ r.buflen.toNat < blockBytes v.W ∧ (r.counter v.W).toNat % blockBytes v.W = 0

/-- The invariant of R36 (I1 to I3): it holds between commands whenever `fin = 0`. -/
def EngineInv (s : State) : Prop := s.fin = false → ∃ v, s.toRegs.LiveAs v

/-- A safe step: the machine neither faults nor refuses. -/
def SafeStep (s : State) : Prop := ∃ t, step s = .next t

/-- `n` steps, ending at the first that answers no next state: `Host.Core.run` of this machine. -/
def runSteps : Nat → State → Host.Outcome State Fault Refusal
  | 0, s => .next s
  | n + 1, s =>
    match step s with
    | .next t => runSteps n t
    | .fault f => .fault f
    | .refused r => .refused r

/-- The reserved encodings (R85): `op` 0 or 4 to 15, `op` 1 with a nonzero bit in CW[27:10], `op` 3 with a nonzero argument. -/
def Reserved (cw : BitVec 32) : Prop :=
  cw.toNat / 2 ^ 28 = 0 ∨ 4 ≤ cw.toNat / 2 ^ 28 ∨
  (cw.toNat / 2 ^ 28 = 1 ∧ cw.toNat / 2 ^ 10 % 2 ^ 18 ≠ 0) ∨ (cw.toNat / 2 ^ 28 = 3 ∧ cw.toNat % 2 ^ 28 ≠ 0)

/-- The response words that can occur (R86). -/
def legalResponses : List (BitVec 16) := [0x0000, 0x1C00, 0x2000, 0x3000, 0x4000, 0x0001, 0x0002, 0x0003]

/-- Every response word of the run so far is one that can occur (R86). -/
def ResponsesLegal (s : State) : Prop := ∀ w ∈ responsesOf s.output, w ∈ legalResponses

/-- What a command never touches is the same: the words still on the command channel, the host's pins, `rst`, what the host has
taken, and the model's reset counter. -/
def SameHost (s t : State) : Prop :=
  s.cmd = t.cmd ∧ s.rspReady = t.rspReady ∧ s.doutReady = t.doutReady ∧ s.rst = t.rst ∧ s.taken = t.taken ∧
  s.resets = t.resets

/-- Everything but the registers is the same. -/
def SameChannels (s t : State) : Prop := SameHost s t ∧ s.waiting = t.waiting ∧ s.din = t.din ∧ s.offer = t.offer

/-- The registers agree where a rule may read them: `fin` always; while the engine is live also `var`, `buflen`, the valid bytes of
`BUF`, and `H` and `ctr` at the widths of the variant (R20, R25, R34, R35). -/
def SameReadable (r q : Regs) : Prop :=
  r.fin = q.fin ∧
  (r.fin = false →
    r.var = q.var ∧ r.buflen = q.buflen ∧ r.tail = q.tail ∧
    ∀ v, variantOf r.var = some v → r.chain v.W = q.chain v.W ∧ r.counter v.W = q.counter v.W)

/-- Two states no sequence of commands can tell apart. -/
def Indistinguishable (s t : State) : Prop := SameReadable s.toRegs t.toRegs ∧ SameChannels s t

/-- The document's loop "while buffer length ≥ block size, extracts one full block, advances the counter by block size, and invokes
CompressionCore", on an unbounded buffer (R102, R104). The first argument bounds the number of turns. -/
def docDrain {W : Nat} (p : Params W) : Nat → Chain W → BitVec (2 * W) → List Byte → Chain W × BitVec (2 * W) × List Byte
  | 0, h, c, buf => (h, c, buf)
  | k + 1, h, c, buf =>
    if blockBytes W ≤ buf.length then
      docDrain p k
        (compressBlock p h (buf.take (blockBytes W)) (bitCount p (c + BitVec.ofNat (2 * W) (blockBytes W))) false)
        (c + BitVec.ofNat (2 * W) (blockBytes W)) (buf.drop (blockBytes W))
    else (h, c, buf)

/-- The document's `update(state, bytes)`: append the whole argument, then drain (R102, R104). -/
def docUpdate {W : Nat} (p : Params W) (h : Chain W) (c : BitVec (2 * W)) (buf bytes : List Byte) :
    Chain W × BitVec (2 * W) × List Byte :=
  docDrain p (buf ++ bytes).length h c (buf ++ bytes)

/-- Block `k` of a message, from 0 (R110). -/
def blockAt (bs k : Nat) (M : List Byte) : List Byte := (M.drop (k * bs)).take bs

/-- `h_k` of R110: the chaining value after the first `k` blocks of `M`, block `k` compressed with `t = 8*BS*k` and `final = 0`. -/
def chainAfter (v : Variant) (M : List Byte) : Nat → Chain v.W
  | 0 => v.params.iv
  | k + 1 =>
    compressBlock v.params (chainAfter v M k) (blockAt (blockBytes v.W) k M)
      (BitVec.ofNat (2 * v.W) (8 * blockBytes v.W * (k + 1))) false

/-- `Hash(v, M)` (R110). -/
def hashOf (v : Variant) (M : List Byte) : List Byte :=
  let q := M.length / blockBytes v.W
  (finalizeFrom v.params (chainAfter v M q) (BitVec.ofNat (2 * v.W) (blockBytes v.W * q)) (M.drop (blockBytes v.W * q))).2

/-- Registers of a live engine of variant `v` that has absorbed the message `M` since its `INIT` (R36, I1 to I4), with `ctr` taken
modulo `2^(2*W)`. -/
def Absorbed (v : Variant) (M : List Byte) (r : Regs) : Prop :=
  r.LiveAs v ∧ r.counter v.W = BitVec.ofNat (2 * v.W) (blockBytes v.W * (M.length / blockBytes v.W)) ∧
  r.buflen.toNat = M.length % blockBytes v.W ∧ r.tail = M.drop (blockBytes v.W * (M.length / blockBytes v.W)) ∧
  r.chain v.W = chainAfter v M (M.length / blockBytes v.W)

/-- The transactions of a hash whose message the host feeds in the given pieces: `INIT`, one `UPDATE` for each piece, `FINAL`
(R110). -/
def hashSession (v : Variant) (pieces : List (List Byte)) : List Transaction :=
  transactionOf ⟨.init v.size, []⟩ :: pieces.map updateTransaction ++ [finalTransaction]

/-- An engine at rest with a host that takes its output: nothing in progress, nothing on the input channels, `rst` released. -/
def AtRest (s : State) : Prop :=
  s.rst = false ∧ s.waiting = none ∧ s.cmd = [] ∧ s.din = [] ∧ s.rspReady = true ∧ s.doutReady = true

end Sys2Proof.Machine
end

