-- ==== Sys2Proof/Certificates/Slice0/Obligations.lean ====
section
/-! DEFINITION. The statements for the provers. Each docstring names the rule of spec/ it comes from; a statement that rests on a
choice of the model names the log entry. -/

open Sys2Proof Sys2Proof.Machine

/-! ### Encoding -/

/-- Decoding the encoding of a command gives it back, with every operand at every value (R82, R83, R84, R92). -/
def Obligations.DecodeOfEncode : Prop := ∀ i : Instr, decode (encode i) = .ok i

/-- A word that decodes to a command is that command's one encoding: no bit of a command word is dropped (R82, R83, R84, R92). -/
def Obligations.EncodeOfDecode : Prop := ∀ (cw : BitVec 32) (i : Instr), decode cw = .ok i → encode i = cw

/-- The decoder accepts exactly the match/mask pairs of the three formats, reads `size` and `len` from their bits, and takes every
other word as reserved (R92). -/
def Obligations.DecodeMatchesOpcodeTable : Prop := ∀ cw : BitVec 32,
  (∀ size : BitVec 10, decode cw = .ok (.init size) ↔
    cw &&& 0xFFFFFC00#32 = 0x10000000#32 ∧ size.toNat = cw.toNat % 2 ^ 10) ∧
  (∀ len : BitVec 28, decode cw = .ok (.update len) ↔
    cw &&& 0xF0000000#32 = 0x20000000#32 ∧ len.toNat = cw.toNat % 2 ^ 28) ∧
  (decode cw = .ok .final ↔ cw &&& 0xFFFFFFFF#32 = 0x30000000#32) ∧
  ((∃ e, decode cw = .error e) ↔ Reserved cw)

/-- Words written out from R82, R83, R84 and R85 decode to what those rules say. -/
def Obligations.SpecWordsDecode : Prop :=
  decode 0x100000E0#32 = .ok (.init 224) ∧ decode 0x10000100#32 = .ok (.init 256) ∧
  decode 0x10000180#32 = .ok (.init 384) ∧ decode 0x10000200#32 = .ok (.init 512) ∧
  decode 0x20000003#32 = .ok (.update 3) ∧ decode 0x30000000#32 = .ok .final ∧
  decode 0x00000000#32 = .error .reservedOpcode ∧ decode 0xFFFFFFFF#32 = .error .reservedOpcode

/-! ### The step -/

/-- A step with `rst` released, no command in progress, the offered output taken and a command word waiting that decodes to `i` is
the execution of `i` on the state with that word taken (R100). -/
def Obligations.StepExecutesDecodedCommand : Prop :=
  ∀ (s : State) (cw : BitVec 32) (rest : List (BitVec 32)) (i : Instr),
    s.rst = false → s.waiting = none → s.drain.offer = [] → s.cmd = cw :: rest → decode cw = .ok i →
    step s = exec i (s.drain.withCmd rest)

/-- A command in progress is gone on with: the step is `UPDATE len` again on the bytes there now (R224; the field `waiting` is the
model's form of the rule, log entry 5). -/
def Obligations.StepResumesWaitingUpdate : Prop :=
  ∀ (s : State) (len : BitVec 28), s.rst = false → s.waiting = some len → s.drain.offer = [] →
    step s = exec (.update len) s.drain

/-- A reserved encoding raises `InvalidCommand` (R85, R193): response 0x0003, no register written, no byte taken from data-in,
nothing on data-out, and the word is taken. -/
def Obligations.ReservedWordRaisesInvalidCommand : Prop := ∀ (s : State) (cw : BitVec 32) (rest : List (BitVec 32)),
  s.rst = false → s.waiting = none → s.drain.offer = [] → s.cmd = cw :: rest → Reserved cw →
  ∃ t, step s = .next t ∧ t.toRegs = s.toRegs ∧ t.din = s.din ∧ t.waiting = none ∧ t.cmd = rest ∧
    t.output = s.output ++ [.rsp 0x0003]

/-- An engine with no command pending is idle and holds its registers (R206): only output the host is ready for is taken. -/
def Obligations.IdleEngineHoldsItsRegisters : Prop := ∀ s : State,
  s.rst = false → s.waiting = none → s.cmd = [] → step s = .next s.drain ∧ s.drain.toRegs = s.toRegs

/-- While the host does not take the event at the head of the output, the engine offers it unchanged and does nothing else (R225):
the step leaves the whole state as it is, and `cmd_ready` is 0. -/
def Obligations.UntakenOutputHoldsTheEngine : Prop := ∀ (s : State) (e : OutEvent) (l : List OutEvent),
  s.rst = false → s.offer = e :: l → s.accepts e = false → step s = .next s ∧ s.cmdReady = false

/-- No overlapping commands (R50, R222): a step takes a word from the command channel only if, its output taken, the engine was
ready for a command; it takes at most one, the first. That a reset step takes none is the model's choice (log entry 17). -/
def Obligations.CommandTakenOnlyWhenReady : Prop := ∀ s t : State, step s = .next t → t.cmd ≠ s.cmd →
  s.drain.cmdReady = true ∧ ∃ cw, s.cmd = cw :: t.cmd

/-- Data-in carries the payload of `UPDATE` and nothing else (R51): without a reset, a step that takes bytes runs an `UPDATE` and takes
its payload in order. That all `len` bytes leave data-in in one step, none of them while the `UPDATE` waits for the others, and the
clause about a waiting `UPDATE`, are the model's choice (log entry 5), not the spec's. -/
def Obligations.PayloadTakenOnlyByUpdate : Prop := ∀ s t : State, s.rst = false → step s = .next t → t.din ≠ s.din →
  ∃ len : BitVec 28,
    (s.waiting = some len ∨ (s.waiting = none ∧ ∃ cw, s.cmd = cw :: t.cmd ∧ decode cw = .ok (.update len))) ∧
    len.toNat ≤ s.din.length ∧ t.din = s.din.drop len.toNat

/-- Output is never withdrawn or reordered without a reset (R225, R54): what a step adds comes after all earlier output, and what
the host had taken stays taken. -/
def Obligations.OutputOnlyGrows : Prop := ∀ s t : State, s.rst = false → step s = .next t →
  (∃ l, t.output = s.output ++ l) ∧ (∃ l, t.taken = s.taken ++ l)

/-- Every command that completes is answered by exactly one response word, followed by as many digest bytes as its `dlen` field says
(R52, R86, R100): after `exec` with no command left in progress. -/
def Obligations.OneResponsePerCommand : Prop := ∀ (i : Instr) (s t : State), exec i s = .next t → t.waiting = none →
  ∃ (w : BitVec 16) (d : List Byte), t.offer = s.offer ++ .rsp w :: d.map .dout ∧ w.toNat / 2 ^ 8 = d.length ∧
    w.toNat / 2 ^ 4 % 2 ^ 4 = 0

/-! ### Reset -/

/-- The reset state is dead and quiet (R35, R220): `fin = 1`, no command in progress, nothing offered, ready for a command, taking no
payload. -/
def Obligations.ResetStateIsDeadAndQuiet : Prop :=
  State.reset.fin = true ∧ State.reset.waiting = none ∧ State.reset.output = [] ∧ State.reset.rspOffered = none ∧
  State.reset.doutOffered = none ∧ State.reset.dinReady = false ∧ State.reset.cmdReady = true

/-- Hardware reset during a run (R220): from every state with `rst` asserted the step gives a dead engine with no command in
progress, nothing offered, ready for a command; no response is added. Bytes are gone from data-in only if an `UPDATE` was waiting, and
then at most its `len`, in order (R51). The model's choices in it: that no command word is taken is log entry 17; that a step stands
for the whole reset, to its release, and lands between commands or in a wait for payload, is log entry 7. -/
def Obligations.ResetStepKillsTheEngine : Prop := ∀ s : State, s.rst = true →
  ∃ t, step s = .next t ∧ t.fin = true ∧ t.waiting = none ∧ t.rspOffered = none ∧ t.doutOffered = none ∧
    t.dinReady = false ∧ t.cmdReady = true ∧ t.cmd = s.cmd ∧ (∃ l, s.output = t.output ++ l) ∧
    (∀ len, s.waiting = some len → ∃ n ≤ len.toNat, t.din = s.din.drop n) ∧ (s.waiting = none → t.din = s.din)

/-- While reset is asserted `rsp_valid`, `dout_valid` and `din_ready` are 0 (R220). That `cmd_ready` is 0 too is the model's choice (log
entry 17): R220 leaves it open until the release. -/
def Obligations.AssertedResetSilencesThePins : Prop := ∀ s : State, s.rst = true →
  s.rspOffered = none ∧ s.doutOffered = none ∧ s.dinReady = false ∧ s.cmdReady = false

/-- What a reset leaves in the five unspecified registers does not matter (R35, R220): two dead engines with the same channels
answer every number of steps with the same output, whatever their other registers hold.That both have taken the same
output and payload by a reset of the run is the model's choice (log entry 3). -/
def Obligations.UnspecifiedRegistersAreNeverSeen : Prop := ∀ (s : State) (r q : Regs) (n : Nat) (s' : State),
  r.fin = true → q.fin = true → runSteps n (s.withRegs r) = .next s' →
  ∃ t', runSteps n (s.withRegs q) = .next t' ∧ s'.output = t'.output ∧ s'.din = t'.din ∧
    s'.cmd = t'.cmd

/-! ### Invariants -/

/-- The invariants that every step keeps hold in the reset state: R36 (I1, I2, I3), and no illegal response given (R86). -/
def Obligations.ResetMeetsInvariants : Prop := EngineInv State.reset ∧ ResponsesLegal State.reset

/-- Every step keeps the invariant of R36 (I1, I2, I3), from every state that meets it. -/
def Obligations.StepKeepsInvariant : Prop := ∀ s t : State, EngineInv s → step s = .next t → EngineInv t

/-- From a state that meets the invariant (R36) no step stops (R228). -/
def Obligations.InvariantStatesNeverStop : Prop := ∀ s : State, EngineInv s → SafeStep s

/-- The only response words that can occur are 0x0000, 0x1C00, 0x2000, 0x3000, 0x4000, 0x0001, 0x0002 and 0x0003 (R86): every step
keeps it so, from every state. -/
def Obligations.StepKeepsResponsesLegal : Prop := ∀ s t : State, ResponsesLegal s → step s = .next t → ResponsesLegal t

/-- Two states that agree where a rule may read them step alike, and agree so again (R108, with R20, R25, R34 and R35): the unused
storage of a 32-bit variant, the bytes of `BUF` from `buflen` on, and every register but `fin` of a dead engine are never seen.That both have taken the same
output and payload by a reset is the model's choice (log entry 3). -/
def Obligations.IndistinguishableStatesStepAlike : Prop := ∀ s t : State, Indistinguishable s t →
  (∀ s', step s = .next s' → ∃ t', step t = .next t' ∧ Indistinguishable s' t') ∧
  (∀ f, step s = .fault f → step t = .fault f)

/-- `INIT` establishes, and `UPDATE` keeps, the whole invariant of R36 (I1 to I4): after `INIT` the engine has absorbed the empty
message, and an `UPDATE` on an engine that has absorbed `M` completes with `M` extended by its payload. -/
def Obligations.EngineHoldsTheMessageAbsorbed : Prop :=
  (∀ (v : Variant) (s : State), ∃ t, exec (.init v.size) s = .next t ∧ Absorbed v [] t.toRegs) ∧
  (∀ (v : Variant) (M : List Byte) (len : BitVec 28) (s : State), Absorbed v M s.toRegs → len.toNat ≤ s.din.length →
    ∃ t, exec (.update len) s = .next t ∧ Absorbed v (M ++ s.din.take len.toNat) t.toRegs)

/-- An engine leaves the dead state only by an `INIT` of a legal size (R106, R221): whatever else a step does, it stays dead. -/
def Obligations.OnlyLegalInitRevives : Prop := ∀ s t : State, s.fin = true → step s = .next t → t.fin = false →
  s.rst = false ∧ s.waiting = none ∧ ∃ (v : Variant) (cw : BitVec 32), s.cmd = cw :: t.cmd ∧ decode cw = .ok (.init v.size)

/-- An engine dies only by a reset or by `FINAL` (R24, R106). -/
def Obligations.OnlyFinalOrResetKills : Prop := ∀ s t : State, s.fin = false → step s = .next t → t.fin = true →
  s.rst = true ∨ (s.waiting = none ∧ ∃ cw, s.cmd = cw :: t.cmd ∧ decode cw = .ok .final)

/-- `var` is written only by a successful `INIT` and is constant for the life of a hash (R21; a reset leaves it unspecified, R220). -/
def Obligations.VarWrittenOnlyByInit : Prop := ∀ s t : State, step s = .next t → t.var ≠ s.var →
  s.rst = true ∨ (t.fin = false ∧ ∃ (v : Variant) (cw : BitVec 32), t.var = v.size ∧ s.cmd = cw :: t.cmd ∧
    decode cw = .ok (.init v.size))

/-! ### INIT -/

/-- `INIT` completes in every state, live or dead (R101). With a legal size `var` holds the size, `H` the variant's initial value, `ctr`
and `buflen` are 0, `fin` is 0, the bytes of `BUF` are not cleared and the response is 0x0000; with any other size it raises
`InvalidVariant` (R192): response 0x0002, and the engine's state is left exactly as it was. Nothing else changes. -/
def Obligations.InitStartsANewHashOrFails : Prop :=
  (∀ (v : Variant) (s : State), ∃ t, exec (.init v.size) s = .next t ∧ t.fin = false ∧ t.var = v.size ∧
    t.chain v.W = v.params.iv ∧ t.counter v.W = 0 ∧ t.buflen = 0 ∧ t.BUF = s.BUF ∧ t.offer = s.offer ++ [.rsp 0x0000] ∧
    t.waiting = s.waiting ∧ t.din = s.din ∧ SameHost s t) ∧
  (∀ (size : BitVec 10) (s : State),
    size.toNat ≠ 224 → size.toNat ≠ 256 → size.toNat ≠ 384 → size.toNat ≠ 512 →
    ∃ t, exec (.init size) s = .next t ∧ t.toRegs = s.toRegs ∧ t.offer = s.offer ++ [.rsp 0x0002] ∧
      t.waiting = s.waiting ∧ t.din = s.din ∧ SameHost s t)

/-- Nothing of an old hash survives `INIT` (R101 corner case (b), R226): whatever two engines held, after the same `INIT` of a legal
size they cannot be told apart. -/
def Obligations.InitForgetsTheOldHash : Prop := ∀ (v : Variant) (s t s' t' : State), SameChannels s t →
  exec (.init v.size) s = .next s' → exec (.init v.size) t = .next t' → Indistinguishable s' t'

/-! ### UPDATE -/

/-- `UPDATE` on a live engine completes (R102), and leaves the chaining value, the counter and the buffered bytes that the document's
own formulation gives, which appends the whole payload and then extracts blocks (R104). It takes its `len` bytes, answers 0x0000, and
changes neither `fin` nor `var` nor anything else. -/
def Obligations.UpdateRefinesTheDocumentsUpdate : Prop := ∀ (v : Variant) (len : BitVec 28) (s : State),
  s.toRegs.LiveAs v → len.toNat ≤ s.din.length →
  ∃ t, exec (.update len) s = .next t ∧
    (t.chain v.W, t.counter v.W, t.tail) =
      docUpdate v.params (s.chain v.W) (s.counter v.W) s.tail (s.din.take len.toNat) ∧
    t.buflen.toNat = t.tail.length ∧ t.fin = false ∧ t.var = s.var ∧ t.din = s.din.drop len.toNat ∧ t.waiting = none ∧
    t.offer = s.offer ++ [.rsp 0x0000] ∧ SameHost s t

/-- Where an `UPDATE` stores (R68, R103): byte `k` of its payload at offset `(buflen + k) mod BS` of `BUF`; the bytes at all other
offsets are unchanged, and the last bytes stored are there afterwards. -/
def Obligations.UpdateStoresItsPayloadInTheBuffer : Prop := ∀ (v : Variant) (len : BitVec 28) (s : State),
  s.toRegs.LiveAs v → len.toNat ≤ s.din.length →
  ∃ t, exec (.update len) s = .next t ∧
    (∀ j : Fin 128, (∀ k < len.toNat, (s.buflen.toNat + k) % blockBytes v.W ≠ j.val) → t.BUF[j] = s.BUF[j]) ∧
    (∀ (j : Fin 128) (k : Nat), k < len.toNat → len.toNat ≤ k + blockBytes v.W →
      (s.buflen.toNat + k) % blockBytes v.W = j.val → some t.BUF[j] = s.din[k]?) ∧
    t.buflen.toNat = (s.buflen.toNat + len.toNat) % blockBytes v.W

/-- `Absorb` (R103). The byte is stored at `BUF[buflen]`. If it does not fill the buffer, `buflen` is one more and nothing else is
written. If it does, the counter is advanced by `BS` modulo `2^(2*W)`, then the block is compressed with `t = (8 * ctr) mod 2^(2*W)` of
the advanced counter, `final = 0` and zero salt, then `buflen` is 0. -/
def Obligations.AbsorbStoresAByteAndCompressesAFullBuffer : Prop := ∀ (v : Variant) (r : Regs) (b : Byte), r.LiveAs v →
  (absorb v.params r b).BUF = r.BUF.setIfInBounds r.buflen.toNat b ∧ (absorb v.params r b).var = r.var ∧
  (absorb v.params r b).fin = r.fin ∧
  (r.buflen.toNat + 1 < blockBytes v.W →
    (absorb v.params r b).buflen.toNat = r.buflen.toNat + 1 ∧ (absorb v.params r b).tail = r.tail ++ [b] ∧
    (absorb v.params r b).H = r.H ∧ (absorb v.params r b).ctr = r.ctr) ∧
  (∀ t : BitVec (2 * v.W), r.buflen.toNat + 1 = blockBytes v.W →
    t = BitVec.ofNat (2 * v.W) (8 * ((r.counter v.W).toNat + blockBytes v.W)) →
    ((absorb v.params r b).counter v.W).toNat = ((r.counter v.W).toNat + blockBytes v.W) % 2 ^ (2 * v.W) ∧
    (absorb v.params r b).chain v.W =
      compress v.params (r.chain v.W) (r.tail ++ [b]) (t.extractLsb' 0 v.W) (t.extractLsb' v.W v.W) false
        #v[0, 0, 0, 0] ∧
    (absorb v.params r b).buflen = 0)

/-- `UPDATE 0` on a live engine is a no-op that answers 0x0000 (R102 corner case (a)). -/
def Obligations.UpdateZeroIsANoOp : Prop := ∀ (v : Variant) (s : State), s.toRegs.LiveAs v →
  ∃ t, exec (.update 0) s = .next t ∧ t.toRegs = s.toRegs ∧ t.din = s.din ∧ t.offer = s.offer ++ [.rsp 0x0000] ∧
    SameHost s t

/-- `InvalidState` (R191). On a dead engine `UPDATE` takes its payload and discards it, `FINAL` takes nothing; both answer 0x0001, put
nothing on data-out and write no register, and the check does not depend on `len`. `INIT` never raises it. -/
def Obligations.DeadEngineAnswersInvalidState : Prop :=
  (∀ (len : BitVec 28) (s : State), s.fin = true → len.toNat ≤ s.din.length →
    ∃ t, exec (.update len) s = .next t ∧ t.toRegs = s.toRegs ∧ t.din = s.din.drop len.toNat ∧ t.waiting = none ∧
      t.offer = s.offer ++ [.rsp 0x0001] ∧ SameHost s t) ∧
  (∀ s : State, s.fin = true → ∃ t, exec .final s = .next t ∧ t.toRegs = s.toRegs ∧ t.offer = s.offer ++ [.rsp 0x0001] ∧
    t.waiting = s.waiting ∧ t.din = s.din ∧ SameHost s t) ∧
  (∀ (size : BitVec 10) (s t : State), exec (.init size) s = .next t → t.offer ≠ s.offer ++ [.rsp 0x0001])

/-- An `UPDATE` whose payload has not all been supplied waits (R224): no response, `din_ready = 1`, `cmd_ready = 0`, and no other command
is accepted until the bytes arrive or `rst` is asserted. That no register is written and data-in is untouched meanwhile, so that every
further step leaves the whole state as it is, is the model's choice (log entry 5), not the spec's. -/
def Obligations.UpdateWaitsForItsPayload : Prop := ∀ (len : BitVec 28) (s : State),
  s.rst = false → s.offer = [] → s.din.length < len.toNat →
  ∃ t, exec (.update len) s = .next t ∧ t.toRegs = s.toRegs ∧ t.offer = [] ∧ t.din = s.din ∧ SameHost s t ∧
    t.dinReady = true ∧ t.cmdReady = false ∧
    (∀ ws : List (BitVec 32), step (t.withCmd ws) = .next (t.withCmd ws))

/-- Chunking independence (R107): `UPDATE len(a), a` then `UPDATE len(b), b` leaves all six registers as
`UPDATE len(a)+len(b), a || b` does, so that a `FINAL` that follows sends the same response and digest; `UPDATE 0` changes no
register. -/
def Obligations.ChunkingIndependence : Prop := ∀ (v : Variant) (la lb lab : BitVec 28) (s : State),
  s.toRegs.LiveAs v → lab.toNat = la.toNat + lb.toNat → lab.toNat ≤ s.din.length →
  ∃ t u w, exec (.update la) s = .next t ∧ exec (.update lb) t = .next u ∧ exec (.update lab) s = .next w ∧
    u.toRegs = w.toRegs ∧ u.din = w.din ∧ (la = 0 → t.toRegs = s.toRegs) ∧ (lb = 0 → u.toRegs = t.toRegs) ∧
    ∃ x y d, exec .final u = .next x ∧ exec .final w = .next y ∧ x.offer = u.offer ++ d ∧ y.offer = w.offer ++ d

/-! ### FINAL -/

/-- `FINAL` on a live engine completes (R105, R34, R139): the digest of the padded tail is sent after the response `N << 8`, `fin` is
1, `H` holds the last chaining value, and nothing else changes. -/
def Obligations.FinalReturnsTheDigest : Prop := ∀ (v : Variant) (s : State), s.toRegs.LiveAs v →
  ∃ t, exec .final s = .next t ∧ t.fin = true ∧
    t.chain v.W = (finalizeFrom v.params (s.chain v.W) (s.counter v.W) s.tail).1 ∧
    t.var = s.var ∧ t.ctr = s.ctr ∧ t.BUF = s.BUF ∧ t.buflen = s.buflen ∧
    t.offer = s.offer ++ .rsp (BitVec.ofNat 16 (256 * (v.size.toNat / 8))) ::
      (finalizeFrom v.params (s.chain v.W) (s.counter v.W) s.tail).2.map .dout ∧
    t.waiting = s.waiting ∧ t.din = s.din ∧ SameHost s t

/-- A successful `FINAL` puts exactly `N` bytes on data-out and `dlen = N` in its response, `N` depending on `var` alone: 28, 32, 48 or
64 (R109). -/
def Obligations.DigestLengthIsFixedByTheVariant : Prop := ∀ (v : Variant) (s : State), s.toRegs.LiveAs v →
  ∃ (t : State) (w : BitVec 16) (d : List Byte), exec .final s = .next t ∧ t.offer = s.offer ++ .rsp w :: d.map .dout ∧
    d.length = s.var.toNat / 8 ∧ w.toNat / 2 ^ 8 = s.var.toNat / 8 ∧ d.length ∈ [28, 32, 48, 64]

/-- No partial digest (R197): a second `FINAL` sends only 0x0001, after the output of the first as it was, and writes no register;
and every command word but `FINAL`, reserved words included, sends no digest byte. -/
def Obligations.DigestIsSentOnceByFinalOnly : Prop :=
  (∀ (v : Variant) (s : State), s.toRegs.LiveAs v →
    ∃ t u d, exec .final s = .next t ∧ exec .final t = .next u ∧ u.toRegs = t.toRegs ∧
      digestBytesOf t.offer = digestBytesOf s.offer ++ d ∧ d.length = s.var.toNat / 8 ∧ u.offer = t.offer ++ [.rsp 0x0001]) ∧
  (∀ (cw : BitVec 32) (s t : State), decode cw ≠ .ok .final → execWord cw s = .next t →
    digestBytesOf t.offer = digestBytesOf s.offer)

/-! ### Errors -/

/-- Error entry (R194, R199): a command answered with an error status has written no architectural register, and its response is the
one word with `dlen = 0`. -/
def Obligations.ErrorsWriteNoRegister : Prop := ∀ (cw : BitVec 32) (s t : State) (w : BitVec 16) (l : List OutEvent),
  execWord cw s = .next t → t.offer = s.offer ++ .rsp w :: l → w.toNat % 16 ≠ 0 →
  t.toRegs = s.toRegs ∧ l = [] ∧ w.toNat / 2 ^ 8 = 0 ∧ SameHost s t

/-- Priority of the errors (R195): `InvalidCommand` before `InvalidVariant` before `InvalidState`. A word with opcode 1 and a nonzero bit
in CW[27:10] is `InvalidCommand` whatever its low bits; an `INIT` of an unsupported size is `InvalidVariant`, on a dead engine too; a
word with opcode 3 and a nonzero argument is `InvalidCommand`, on a dead engine too; `UPDATE` on a dead engine is always
`InvalidState`. -/
def Obligations.ErrorPriority : Prop := ∀ (cw : BitVec 32) (s : State),
  (cw.toNat / 2 ^ 28 = 1 → cw.toNat / 2 ^ 10 % 2 ^ 18 ≠ 0 →
    ∃ t, execWord cw s = .next t ∧ t.offer = s.offer ++ [.rsp 3]) ∧
  (cw.toNat / 2 ^ 10 = 2 ^ 18 → cw.toNat % 2 ^ 10 ∉ [224, 256, 384, 512] →
    ∃ t, execWord cw s = .next t ∧ t.offer = s.offer ++ [.rsp 2]) ∧
  (cw.toNat / 2 ^ 28 = 3 → cw.toNat % 2 ^ 28 ≠ 0 →
    ∃ t, execWord cw s = .next t ∧ t.offer = s.offer ++ [.rsp 3]) ∧
  (cw.toNat / 2 ^ 28 = 2 → s.fin = true → cw.toNat % 2 ^ 28 ≤ s.din.length →
    ∃ t, execWord cw s = .next t ∧ t.offer = s.offer ++ [.rsp 1])

/-- A live engine outside R21 or R26, which no run reaches, stops by name on `FINAL` and on an `UPDATE` with its payload (the model's
choice, log entry 8). -/
def Obligations.LiveEngineOutsideTheInvariantStops : Prop := ∀ (s : State) (len : BitVec 28), s.fin = false →
  len.toNat ≤ s.din.length →
  (s.var.toNat ∉ [224, 256, 384, 512] →
    exec .final s = .fault .varNotAVariant ∧ exec (.update len) s = .fault .varNotAVariant) ∧
  (∀ v : Variant, s.var = v.size → blockBytes v.W ≤ s.buflen.toNat →
    exec .final s = .fault .buflenNotBelowBlock ∧ exec (.update len) s = .fault .buflenNotBelowBlock)

/-! ### Padding -/

/-- Finalizing an empty tail (R137 (b), R139, R141 (a), (b)): one compression with `final = 1` and `t = 0` of the block `80`, zero
bytes, a byte equal to `TB`, and the length. -/
def Obligations.FinalizeOfAnEmptyTail : Prop := ∀ (v : Variant) (h : Chain v.W) (c : BitVec (2 * v.W)),
  (finalizeFrom v.params h c []).1 =
    compress v.params h
      ([0x80#8] ++ List.replicate (padLimit v.W - 2) 0 ++ [v.params.tb] ++
        beStore (lengthFieldBytes v.W) (BitVec.ofNat (2 * v.W) (8 * c.toNat)))
      0 0 true #v[0, 0, 0, 0]

/-- Finalizing a tail that leaves room for zero bytes (R132, R133, R135, R136, R137 (a), R139): one compression with `final = 1` and
`t = L` of the tail, `80`, zero bytes, a byte equal to `TB`, and the length. -/
def Obligations.FinalizeOfAShortTail : Prop := ∀ (v : Variant) (h : Chain v.W) (c L : BitVec (2 * v.W)) (tail : List Byte),
  0 < tail.length → tail.length + 1 < padLimit v.W → L = BitVec.ofNat (2 * v.W) (8 * (c.toNat + tail.length)) →
  (finalizeFrom v.params h c tail).1 =
    compress v.params h
      (tail ++ [0x80#8] ++ List.replicate (padLimit v.W - tail.length - 2) 0 ++ [v.params.tb] ++
        beStore (lengthFieldBytes v.W) L)
      (L.extractLsb' 0 v.W) (L.extractLsb' v.W v.W) true #v[0, 0, 0, 0]

/-- Finalizing the longest tail of the single-block branch (R133, R135, R141 (c)): the marker is the last byte before the length field
and becomes `80 | TB`; no zero byte. -/
def Obligations.FinalizeOfATailThatJustFits : Prop :=
  ∀ (v : Variant) (h : Chain v.W) (c L : BitVec (2 * v.W)) (tail : List Byte),
  tail.length + 1 = padLimit v.W → L = BitVec.ofNat (2 * v.W) (8 * (c.toNat + tail.length)) →
  (finalizeFrom v.params h c tail).1 =
    compress v.params h (tail ++ [0x80#8 ||| v.params.tb] ++ beStore (lengthFieldBytes v.W) L)
      (L.extractLsb' 0 v.W) (L.extractLsb' v.W v.W) true #v[0, 0, 0, 0]

/-- Finalizing in the overflow branch (R133, R136, R137 (c), (d), R138, R141 (d), (e)): first the tail, `80` and zero bytes to the end
of the block, compressed with `final = 0` and `t = L`; then zero bytes, `TB` and the length, compressed with `final = 1` and
`t = 0`. -/
def Obligations.FinalizeInTheOverflowBranch : Prop :=
  ∀ (v : Variant) (h : Chain v.W) (c L : BitVec (2 * v.W)) (tail : List Byte),
  padLimit v.W ≤ tail.length → tail.length < blockBytes v.W →
  L = BitVec.ofNat (2 * v.W) (8 * (c.toNat + tail.length)) →
  (finalizeFrom v.params h c tail).1 =
    compress v.params
      (compress v.params h (tail ++ [0x80#8] ++ List.replicate (blockBytes v.W - 1 - tail.length) 0)
        (L.extractLsb' 0 v.W) (L.extractLsb' v.W v.W) false #v[0, 0, 0, 0])
      (List.replicate (padLimit v.W - 1) 0 ++ [v.params.tb] ++ beStore (lengthFieldBytes v.W) L)
      0 0 true #v[0, 0, 0, 0]

/-- The length field is the words `m[14]`, the high `W` bits of `L`, and `m[15]`, the low `W` bits (R56). -/
def Obligations.LengthFieldIsTheLastTwoWords : Prop := ∀ (v : Variant) (P : List Byte) (L : BitVec (2 * v.W)),
  P.length = padLimit v.W →
  messageWord v.W (P ++ beStore (lengthFieldBytes v.W) L) 14 = L.extractLsb' v.W v.W ∧
  messageWord v.W (P ++ beStore (lengthFieldBytes v.W) L) 15 = L.extractLsb' 0 v.W

/-- The digest (R57, R140): `N` bytes, byte `j` being the byte of word `H[j / WB]` that stands `j mod WB` places below its most
significant byte. -/
def Obligations.DigestIsTheChainingValueBigEndian : Prop := ∀ (v : Variant) (h : Chain v.W) (c : BitVec (2 * v.W))
    (tail : List Byte) (j : Nat) (_ : j < v.size.toNat / 8) (hj : j / wordBytes v.W < 8),
  (finalizeFrom v.params h c tail).2.length = v.size.toNat / 8 ∧
  (finalizeFrom v.params h c tail).2[j]? =
    some (((finalizeFrom v.params h c tail).1[j / wordBytes v.W]).extractLsb'
      (8 * (wordBytes v.W - 1 - j % wordBytes v.W)) 8)

/-- `be_load` and `be_store` are inverse to each other (R10). -/
def Obligations.BeLoadAndBeStoreAreInverse : Prop :=
  (∀ (k : Nat) (x : BitVec (8 * k)), beLoad (8 * k) (beStore k x) = x) ∧
  (∀ b : List Byte, beStore b.length (beLoad (8 * b.length) b) = b)

/-! ### The compression core -/

/-- Bit `i` of `rotr_W(x, n)` is bit `(i + n) mod W` of `x`, for `0 < n < W` (R152). -/
def Obligations.RotrMovesEachBit : Prop := ∀ (W n i : Nat) (x : Word W), 0 < n → n < W → i < W →
  (rotr x n).getLsbD i = x.getLsbD ((i + n) % W)

/-- One application of `G` writes its four positions only, and what it writes there depends on those four words and its two inputs `x` and
`y` only (R164): two applications that agree in these write the same, whatever else the working vectors, the message words and the
rounds are. -/
def Obligations.GTouchesItsFourWordsOnly : Prop :=
  ∀ (v : Variant) (m m' : Vec16 v.W) (r r' : Nat) (x y : Vec16 v.W) (g : GPos), g ∈ roundSchedule →
  (∀ k : Fin 16, k ∉ [g.a, g.b, g.c, g.d] → (applyG v.params m r x g)[k] = x[k]) ∧
  (gInputX v.params m r g.i = gInputX v.params m' r' g.i → gInputY v.params m r g.i = gInputY v.params m' r' g.i →
    (∀ k ∈ [g.a, g.b, g.c, g.d], x[k] = y[k]) →
    ∀ k ∈ [g.a, g.b, g.c, g.d], (applyG v.params m r x g)[k] = (applyG v.params m' r' y g)[k])

/-- The four columns of a round may be done in any order, and so may the four diagonals (R165): any two of one group commute. -/
def Obligations.ColumnsCommuteAndDiagonalsCommute : Prop :=
  ∀ (v : Variant) (m : Vec16 v.W) (r : Nat) (x : Vec16 v.W) (g g' : GPos),
  (g ∈ roundSchedule.take 4 ∧ g' ∈ roundSchedule.take 4) ∨ (g ∈ roundSchedule.drop 4 ∧ g' ∈ roundSchedule.drop 4) →
  applyG v.params m r (applyG v.params m r x g) g' = applyG v.params m r (applyG v.params m r x g') g

/-- For every variant each row of `SIGMA` holds each of the sixteen indices exactly once, and round `r + 10` uses the row of round `r` (R157, R165,
R166). -/
def Obligations.ScheduleRowsArePermutations : Prop := ∀ (v : Variant) (r : Nat) (k : Fin 16),
  (sigmaRow v.params r).toList.count k = 1 ∧ sigmaRow v.params (r + 10) = sigmaRow v.params r

/-- The final flag XORs `FLAGMASK` into `v[12..15]` when it is 1 and does nothing when it is 0; with the decided mask `Compress` returns
the same result for both (R163). -/
def Obligations.FinalFlagInjection : Prop :=
  (∀ (v : Variant) (mask : Vector (Word v.W) 4) (x : Vec16 v.W),
    injectFlag mask false x = x ∧
    (∀ k : Fin 12, (injectFlag mask true x)[k.val] = x[k.val]) ∧
    (∀ k : Fin 4, (injectFlag mask true x)[12 + k.val] = x[12 + k.val] ^^^ mask[k])) ∧
  (∀ (v : Variant) (h : Chain v.W) (B : List Byte) (t0 t1 : Word v.W) (s : Vector (Word v.W) 4),
    compress v.params h B t0 t1 true s = compress v.params h B t0 t1 false s)

/-! ### The whole engine -/

/-- The engine computes `Hash(v, M)` (R110): from every state at rest, live or dead, the session `INIT v`, `UPDATE` of each piece and
`FINAL` runs through, one step a command, and the output it adds is 0x0000 for `INIT` and each `UPDATE`, then `N << 8`, then the digest
`Hash(v, M)` of the concatenation `M` of the pieces, however `M` is cut. The one-shot `HASH` returns the same digest. -/
def Obligations.SessionReturnsTheHashOfTheMessage : Prop :=
  (∀ (v : Variant) (pieces : List (List Byte)) (s : State), AtRest s → (∀ p ∈ pieces, p.length ≤ maxPayload) →
    ∃ t, runSteps (pieces.length + 2) (s.hostSendAll (hashSession v pieces)) = .next t ∧
      t.output = s.output ++ List.replicate (pieces.length + 1) (.rsp 0x0000) ++
        .rsp (BitVec.ofNat 16 (256 * (v.size.toNat / 8))) :: (hashOf v pieces.flatten).map .dout ∧
      t.fin = true ∧ t.cmd = [] ∧ t.din = []) ∧
  (∀ (v : Variant) (M : List Byte) (s : State), AtRest s →
    ∃ xs n t out, assemble s.var (.hash v.size.toNat M) = some xs ∧ runSteps n (s.hostSendAll xs) = .next t ∧
      t.output = s.output ++ out ∧ digestBytesOf out = hashOf v M)

/-- `HASH` expands to `INIT`, the payload in `UPDATE`s of at most `2^28 - 1` bytes, in order, and `FINAL`: the session of that hash. One
`UPDATE` carries the payload if it fits (R91). -/
def Obligations.HashPseudoInstructionIsASession : Prop := ∀ (v : Variant) (b : List Byte) (var : BitVec 10),
  ∃ pieces, assemble var (.hash v.size.toNat b) = some (hashSession v pieces) ∧ pieces.flatten = b ∧
    (∀ p ∈ pieces, p.length ≤ maxPayload) ∧ (b.length ≤ maxPayload → pieces = [b])

/-- `RESTART` is `INIT` with the size in `var` (R91): it sends that one command word and no payload. On an engine whose `var` is a legal
size, live or dead, the word starts a new hash of the same variant (R101): `fin`, `ctr` and `buflen` are 0, `var` is as it was, `H` is
the variant's initial value, the response is 0x0000, and `BUF`, data-in, the words still offered and the pins are unchanged. -/
def Obligations.RestartReinitialisesTheSameVariant : Prop := ∀ s : State,
  ∃ x, assemble s.var .restart = some [x] ∧ x.word = encode (.init s.var) ∧ x.payload = [] ∧
  ∀ v : Variant, s.var = v.size → ∃ t, execWord x.word s = .next t ∧ t.fin = false ∧ t.var = s.var ∧
    t.chain v.W = v.params.iv ∧ t.counter v.W = 0 ∧ t.buflen = 0 ∧ t.BUF = s.BUF ∧
    t.offer = s.offer ++ [.rsp 0x0000] ∧ t.waiting = s.waiting ∧ t.din = s.din ∧ SameHost s t

/-- Engines share nothing (R204): a step of one engine of a platform changes that engine only, and as it would alone. -/
def Obligations.EnginesShareNothing : Prop := ∀ (k : Nat) (engines engines' : Platform),
  Platform.stepEngine k engines = .next engines' →
  (∀ j, j ≠ k → engines'[j]? = engines[j]?) ∧
  (∀ s, engines[k]? = some s → ∃ t, step s = .next t ∧ engines'[k]? = some t)

/-- What a 32-bit variant leaves alone (the model's reading of R20, log entry 4): the high halves of `H` and `ctr` and the bytes of
`BUF` from 64 on keep their contents through every command that leaves the engine on a 32-bit variant. -/
def Obligations.NarrowVariantsKeepTheUnusedStorage : Prop := ∀ (i : Instr) (s t : State) (v : Variant),
  EngineInv s → exec i s = .next t → t.var = v.size → v.W = 32 →
  (∀ j : Fin 8, t.H[j] >>> 32 = s.H[j] >>> 32) ∧ t.ctr >>> 64 = s.ctr >>> 64 ∧
  (∀ j : Fin 128, 64 ≤ j.val → t.BUF[j] = s.BUF[j])
end

