-- ==== Sys2Proof/Laws/Decode.lean ====
section
/-! SUPPORT. Decoding and encoding as arithmetic on the number a command word stands for (spec/30_encoding.md R80 to R92). -/

namespace Sys2Proof

/-- The opcode is the word's number divided by `2^28` (R80). -/
theorem opField_eq_iff (cw : BitVec 32) (k : Nat) (hk : k < 16) : opField cw = BitVec.ofNat 4 k ↔ cw.toNat / 2 ^ 28 = k := by
  have hlt := cw.isLt
  rw [← BitVec.toNat_inj]
  simp [opField, Nat.shiftRight_eq_div_pow]
  omega

/-- The decoding procedure on numbers: no bit-field extraction is left in it. -/
theorem decode_eq (cw : BitVec 32) : decode cw =
    if cw.toNat / 2 ^ 28 = 1 then
      if cw.toNat / 2 ^ 10 % 2 ^ 18 ≠ 0 then .error .reservedInit else .ok (.init (BitVec.ofNat 10 cw.toNat))
    else if cw.toNat / 2 ^ 28 = 2 then .ok (.update (BitVec.ofNat 28 cw.toNat))
    else if cw.toNat / 2 ^ 28 = 3 then
      if cw.toNat % 2 ^ 28 ≠ 0 then .error .reservedFinal else .ok .final
    else .error .reservedOpcode := by
  have hlt := cw.isLt
  have e2 : initZeroField (argField cw) = 0#18 ↔ cw.toNat / 2 ^ 10 % 2 ^ 18 = 0 := by
    rw [← BitVec.toNat_inj]
    simp [initZeroField, argField, Nat.shiftRight_eq_div_pow]
  have e3 : argField cw = 0#28 ↔ cw.toNat % 2 ^ 28 = 0 := by
    rw [← BitVec.toNat_inj]; simp [argField]
  have e4 : sizeField (argField cw) = BitVec.ofNat 10 cw.toNat := by
    rw [← BitVec.toNat_inj]; simp [sizeField, argField]
  have e5 : argField cw = BitVec.ofNat 28 cw.toNat := by
    rw [← BitVec.toNat_inj]; simp [argField]
  unfold decode
  simp only [opField_eq_iff cw 1 (by omega), opField_eq_iff cw 2 (by omega), opField_eq_iff cw 3 (by omega), e2, e3, e4, ne_eq]
  simp only [e5]

/-- Concatenation as a sum. -/
theorem append_toNat {m k : Nat} (x : BitVec m) (y : BitVec k) : (x ++ y).toNat = 2 ^ k * x.toNat + y.toNat := by
  rw [BitVec.toNat_append, Nat.shiftLeft_eq, Nat.mul_comm, Nat.two_pow_add_eq_or_of_lt y.isLt]

theorem encode_init_toNat (size : BitVec 10) : (encode (.init size)).toNat = 2 ^ 28 + size.toNat := by
  show (1#4 ++ 0#18 ++ size).toNat = _
  rw [append_toNat, show (1#4 ++ 0#18).toNat = 2 ^ 18 by decide]
  norm_num

theorem encode_update_toNat (len : BitVec 28) : (encode (.update len)).toNat = 2 ^ 29 + len.toNat := by
  show (2#4 ++ len).toNat = _
  rw [append_toNat]; rfl

end Sys2Proof
end

