-- ==== Sys2Proof/Laws/State.lean ====
section
/-! SUPPORT. One lemma per field per update, true by `rfl` and tagged for simp, so that no proof unfolds a record update. -/

namespace Sys2Proof.Machine


/-! ### `Regs.setChain` -/

@[simp] theorem Regs.setChain_fin {W : Nat} (h : Chain W) (r : Regs) : (r.setChain h).fin = r.fin := rfl
@[simp] theorem Regs.setChain_var {W : Nat} (h : Chain W) (r : Regs) : (r.setChain h).var = r.var := rfl
@[simp] theorem Regs.setChain_H {W : Nat} (h : Chain W) (r : Regs) : (r.setChain h).H = Vector.ofFn fun i => mergeLow r.H[i] h[i] := rfl
@[simp] theorem Regs.setChain_ctr {W : Nat} (h : Chain W) (r : Regs) : (r.setChain h).ctr = r.ctr := rfl
@[simp] theorem Regs.setChain_BUF {W : Nat} (h : Chain W) (r : Regs) : (r.setChain h).BUF = r.BUF := rfl
@[simp] theorem Regs.setChain_buflen {W : Nat} (h : Chain W) (r : Regs) : (r.setChain h).buflen = r.buflen := rfl

/-! ### `Regs.setCounter` -/

@[simp] theorem Regs.setCounter_fin {W : Nat} (c : BitVec (2 * W)) (r : Regs) : (r.setCounter c).fin = r.fin := rfl
@[simp] theorem Regs.setCounter_var {W : Nat} (c : BitVec (2 * W)) (r : Regs) : (r.setCounter c).var = r.var := rfl
@[simp] theorem Regs.setCounter_H {W : Nat} (c : BitVec (2 * W)) (r : Regs) : (r.setCounter c).H = r.H := rfl
@[simp] theorem Regs.setCounter_ctr {W : Nat} (c : BitVec (2 * W)) (r : Regs) : (r.setCounter c).ctr = mergeLow r.ctr c := rfl
@[simp] theorem Regs.setCounter_BUF {W : Nat} (c : BitVec (2 * W)) (r : Regs) : (r.setCounter c).BUF = r.BUF := rfl
@[simp] theorem Regs.setCounter_buflen {W : Nat} (c : BitVec (2 * W)) (r : Regs) : (r.setCounter c).buflen = r.buflen := rfl

/-! ### `Regs.storeByte` -/

@[simp] theorem Regs.storeByte_fin (b : Byte) (r : Regs) : (r.storeByte b).fin = r.fin := rfl
@[simp] theorem Regs.storeByte_var (b : Byte) (r : Regs) : (r.storeByte b).var = r.var := rfl
@[simp] theorem Regs.storeByte_H (b : Byte) (r : Regs) : (r.storeByte b).H = r.H := rfl
@[simp] theorem Regs.storeByte_ctr (b : Byte) (r : Regs) : (r.storeByte b).ctr = r.ctr := rfl
@[simp] theorem Regs.storeByte_BUF (b : Byte) (r : Regs) : (r.storeByte b).BUF = r.BUF.setIfInBounds r.buflen.toNat b := rfl
@[simp] theorem Regs.storeByte_buflen (b : Byte) (r : Regs) : (r.storeByte b).buflen = r.buflen + 1 := rfl

/-! ### `Regs.makeLive` -/

@[simp] theorem Regs.makeLive_fin (r : Regs) : (r.makeLive).fin = false := rfl
@[simp] theorem Regs.makeLive_var (r : Regs) : (r.makeLive).var = r.var := rfl
@[simp] theorem Regs.makeLive_H (r : Regs) : (r.makeLive).H = r.H := rfl
@[simp] theorem Regs.makeLive_ctr (r : Regs) : (r.makeLive).ctr = r.ctr := rfl
@[simp] theorem Regs.makeLive_BUF (r : Regs) : (r.makeLive).BUF = r.BUF := rfl
@[simp] theorem Regs.makeLive_buflen (r : Regs) : (r.makeLive).buflen = r.buflen := rfl

/-! ### `Regs.makeDead` -/

@[simp] theorem Regs.makeDead_fin (r : Regs) : (r.makeDead).fin = true := rfl
@[simp] theorem Regs.makeDead_var (r : Regs) : (r.makeDead).var = r.var := rfl
@[simp] theorem Regs.makeDead_H (r : Regs) : (r.makeDead).H = r.H := rfl
@[simp] theorem Regs.makeDead_ctr (r : Regs) : (r.makeDead).ctr = r.ctr := rfl
@[simp] theorem Regs.makeDead_BUF (r : Regs) : (r.makeDead).BUF = r.BUF := rfl
@[simp] theorem Regs.makeDead_buflen (r : Regs) : (r.makeDead).buflen = r.buflen := rfl

/-! ### `startHash` -/

@[simp] theorem startHash_fin (v : Variant) (r : Regs) : (startHash v r).fin = false := rfl
@[simp] theorem startHash_var (v : Variant) (r : Regs) : (startHash v r).var = v.size := rfl
@[simp] theorem startHash_H (v : Variant) (r : Regs) : (startHash v r).H = (r.setChain v.params.iv).H := rfl
@[simp] theorem startHash_ctr (v : Variant) (r : Regs) : (startHash v r).ctr = mergeLow r.ctr (0 : BitVec (2 * v.W)) := rfl
@[simp] theorem startHash_BUF (v : Variant) (r : Regs) : (startHash v r).BUF = r.BUF := rfl
@[simp] theorem startHash_buflen (v : Variant) (r : Regs) : (startHash v r).buflen = 0 := rfl

/-! ### `compressBuffer` -/

@[simp] theorem compressBuffer_fin {W : Nat} (p : Params W) (r : Regs) : (compressBuffer p r).fin = r.fin := rfl
@[simp] theorem compressBuffer_var {W : Nat} (p : Params W) (r : Regs) : (compressBuffer p r).var = r.var := rfl
@[simp] theorem compressBuffer_H {W : Nat} (p : Params W) (r : Regs) : (compressBuffer p r).H = (r.setChain (compressBlock p (r.chain W) (r.block W)
      (bitCount p (r.counter W + BitVec.ofNat (2 * W) (blockBytes W))) false)).H := rfl
@[simp] theorem compressBuffer_ctr {W : Nat} (p : Params W) (r : Regs) : (compressBuffer p r).ctr = mergeLow r.ctr (r.counter W + BitVec.ofNat (2 * W) (blockBytes W)) := rfl
@[simp] theorem compressBuffer_BUF {W : Nat} (p : Params W) (r : Regs) : (compressBuffer p r).BUF = r.BUF := rfl
@[simp] theorem compressBuffer_buflen {W : Nat} (p : Params W) (r : Regs) : (compressBuffer p r).buflen = 0 := rfl

/-! ### `State.withCmd` -/

@[simp] theorem State.withCmd_toRegs (ws : List (BitVec 32)) (s : State) : (s.withCmd ws).toRegs = s.toRegs := rfl
@[simp] theorem State.withCmd_waiting (ws : List (BitVec 32)) (s : State) : (s.withCmd ws).waiting = s.waiting := rfl
@[simp] theorem State.withCmd_cmd (ws : List (BitVec 32)) (s : State) : (s.withCmd ws).cmd = ws := rfl
@[simp] theorem State.withCmd_din (ws : List (BitVec 32)) (s : State) : (s.withCmd ws).din = s.din := rfl
@[simp] theorem State.withCmd_rspReady (ws : List (BitVec 32)) (s : State) : (s.withCmd ws).rspReady = s.rspReady := rfl
@[simp] theorem State.withCmd_doutReady (ws : List (BitVec 32)) (s : State) : (s.withCmd ws).doutReady = s.doutReady := rfl
@[simp] theorem State.withCmd_rst (ws : List (BitVec 32)) (s : State) : (s.withCmd ws).rst = s.rst := rfl
@[simp] theorem State.withCmd_offer (ws : List (BitVec 32)) (s : State) : (s.withCmd ws).offer = s.offer := rfl
@[simp] theorem State.withCmd_taken (ws : List (BitVec 32)) (s : State) : (s.withCmd ws).taken = s.taken := rfl
@[simp] theorem State.withCmd_resets (ws : List (BitVec 32)) (s : State) : (s.withCmd ws).resets = s.resets := rfl

/-! ### `State.afterPayload` -/

@[simp] theorem State.afterPayload_toRegs (n : Nat) (s : State) : (s.afterPayload n).toRegs = s.toRegs := rfl
@[simp] theorem State.afterPayload_waiting (n : Nat) (s : State) : (s.afterPayload n).waiting = none := rfl
@[simp] theorem State.afterPayload_cmd (n : Nat) (s : State) : (s.afterPayload n).cmd = s.cmd := rfl
@[simp] theorem State.afterPayload_din (n : Nat) (s : State) : (s.afterPayload n).din = s.din.drop n := rfl
@[simp] theorem State.afterPayload_rspReady (n : Nat) (s : State) : (s.afterPayload n).rspReady = s.rspReady := rfl
@[simp] theorem State.afterPayload_doutReady (n : Nat) (s : State) : (s.afterPayload n).doutReady = s.doutReady := rfl
@[simp] theorem State.afterPayload_rst (n : Nat) (s : State) : (s.afterPayload n).rst = s.rst := rfl
@[simp] theorem State.afterPayload_offer (n : Nat) (s : State) : (s.afterPayload n).offer = s.offer := rfl
@[simp] theorem State.afterPayload_taken (n : Nat) (s : State) : (s.afterPayload n).taken = s.taken := rfl
@[simp] theorem State.afterPayload_resets (n : Nat) (s : State) : (s.afterPayload n).resets = s.resets := rfl

/-! ### `State.rspPush` -/

@[simp] theorem State.rspPush_toRegs (w : BitVec 16) (s : State) : (s.rspPush w).toRegs = s.toRegs := rfl
@[simp] theorem State.rspPush_waiting (w : BitVec 16) (s : State) : (s.rspPush w).waiting = s.waiting := rfl
@[simp] theorem State.rspPush_cmd (w : BitVec 16) (s : State) : (s.rspPush w).cmd = s.cmd := rfl
@[simp] theorem State.rspPush_din (w : BitVec 16) (s : State) : (s.rspPush w).din = s.din := rfl
@[simp] theorem State.rspPush_rspReady (w : BitVec 16) (s : State) : (s.rspPush w).rspReady = s.rspReady := rfl
@[simp] theorem State.rspPush_doutReady (w : BitVec 16) (s : State) : (s.rspPush w).doutReady = s.doutReady := rfl
@[simp] theorem State.rspPush_rst (w : BitVec 16) (s : State) : (s.rspPush w).rst = s.rst := rfl
@[simp] theorem State.rspPush_offer (w : BitVec 16) (s : State) : (s.rspPush w).offer = s.offer ++ [.rsp w] := rfl
@[simp] theorem State.rspPush_taken (w : BitVec 16) (s : State) : (s.rspPush w).taken = s.taken := rfl
@[simp] theorem State.rspPush_resets (w : BitVec 16) (s : State) : (s.rspPush w).resets = s.resets := rfl

/-! ### `State.doutPush` -/

@[simp] theorem State.doutPush_toRegs (d : List Byte) (s : State) : (s.doutPush d).toRegs = s.toRegs := rfl
@[simp] theorem State.doutPush_waiting (d : List Byte) (s : State) : (s.doutPush d).waiting = s.waiting := rfl
@[simp] theorem State.doutPush_cmd (d : List Byte) (s : State) : (s.doutPush d).cmd = s.cmd := rfl
@[simp] theorem State.doutPush_din (d : List Byte) (s : State) : (s.doutPush d).din = s.din := rfl
@[simp] theorem State.doutPush_rspReady (d : List Byte) (s : State) : (s.doutPush d).rspReady = s.rspReady := rfl
@[simp] theorem State.doutPush_doutReady (d : List Byte) (s : State) : (s.doutPush d).doutReady = s.doutReady := rfl
@[simp] theorem State.doutPush_rst (d : List Byte) (s : State) : (s.doutPush d).rst = s.rst := rfl
@[simp] theorem State.doutPush_offer (d : List Byte) (s : State) : (s.doutPush d).offer = s.offer ++ d.map .dout := rfl
@[simp] theorem State.doutPush_taken (d : List Byte) (s : State) : (s.doutPush d).taken = s.taken := rfl
@[simp] theorem State.doutPush_resets (d : List Byte) (s : State) : (s.doutPush d).resets = s.resets := rfl

/-! ### `State.withRegs` -/

@[simp] theorem State.withRegs_toRegs (r : Regs) (s : State) : (s.withRegs r).toRegs = r := rfl
@[simp] theorem State.withRegs_waiting (r : Regs) (s : State) : (s.withRegs r).waiting = s.waiting := rfl
@[simp] theorem State.withRegs_cmd (r : Regs) (s : State) : (s.withRegs r).cmd = s.cmd := rfl
@[simp] theorem State.withRegs_din (r : Regs) (s : State) : (s.withRegs r).din = s.din := rfl
@[simp] theorem State.withRegs_rspReady (r : Regs) (s : State) : (s.withRegs r).rspReady = s.rspReady := rfl
@[simp] theorem State.withRegs_doutReady (r : Regs) (s : State) : (s.withRegs r).doutReady = s.doutReady := rfl
@[simp] theorem State.withRegs_rst (r : Regs) (s : State) : (s.withRegs r).rst = s.rst := rfl
@[simp] theorem State.withRegs_offer (r : Regs) (s : State) : (s.withRegs r).offer = s.offer := rfl
@[simp] theorem State.withRegs_taken (r : Regs) (s : State) : (s.withRegs r).taken = s.taken := rfl
@[simp] theorem State.withRegs_resets (r : Regs) (s : State) : (s.withRegs r).resets = s.resets := rfl

/-! ### `respondOk` -/

@[simp] theorem respondOk_toRegs (s : State) : (respondOk s).toRegs = s.toRegs := rfl
@[simp] theorem respondOk_waiting (s : State) : (respondOk s).waiting = s.waiting := rfl
@[simp] theorem respondOk_cmd (s : State) : (respondOk s).cmd = s.cmd := rfl
@[simp] theorem respondOk_din (s : State) : (respondOk s).din = s.din := rfl
@[simp] theorem respondOk_rspReady (s : State) : (respondOk s).rspReady = s.rspReady := rfl
@[simp] theorem respondOk_doutReady (s : State) : (respondOk s).doutReady = s.doutReady := rfl
@[simp] theorem respondOk_rst (s : State) : (respondOk s).rst = s.rst := rfl
@[simp] theorem respondOk_offer (s : State) : (respondOk s).offer = s.offer ++ [.rsp okResponse] := rfl
@[simp] theorem respondOk_taken (s : State) : (respondOk s).taken = s.taken := rfl
@[simp] theorem respondOk_resets (s : State) : (respondOk s).resets = s.resets := rfl

/-! ### `respondDigest` -/

@[simp] theorem respondDigest_toRegs (d : List Byte) (n : Nat) (s : State) : (respondDigest d n s).toRegs = s.toRegs := rfl
@[simp] theorem respondDigest_waiting (d : List Byte) (n : Nat) (s : State) : (respondDigest d n s).waiting = s.waiting := rfl
@[simp] theorem respondDigest_cmd (d : List Byte) (n : Nat) (s : State) : (respondDigest d n s).cmd = s.cmd := rfl
@[simp] theorem respondDigest_din (d : List Byte) (n : Nat) (s : State) : (respondDigest d n s).din = s.din := rfl
@[simp] theorem respondDigest_rspReady (d : List Byte) (n : Nat) (s : State) : (respondDigest d n s).rspReady = s.rspReady := rfl
@[simp] theorem respondDigest_doutReady (d : List Byte) (n : Nat) (s : State) : (respondDigest d n s).doutReady = s.doutReady := rfl
@[simp] theorem respondDigest_rst (d : List Byte) (n : Nat) (s : State) : (respondDigest d n s).rst = s.rst := rfl
@[simp] theorem respondDigest_offer (d : List Byte) (n : Nat) (s : State) : (respondDigest d n s).offer = s.offer ++ [.rsp (digestResponse n)] ++ d.map .dout := rfl
@[simp] theorem respondDigest_taken (d : List Byte) (n : Nat) (s : State) : (respondDigest d n s).taken = s.taken := rfl
@[simp] theorem respondDigest_resets (d : List Byte) (n : Nat) (s : State) : (respondDigest d n s).resets = s.resets := rfl

/-! ### `raiseError` -/

@[simp] theorem raiseError_toRegs (e : ErrorCause) (s : State) : (raiseError e s).toRegs = s.toRegs := rfl
@[simp] theorem raiseError_waiting (e : ErrorCause) (s : State) : (raiseError e s).waiting = s.waiting := rfl
@[simp] theorem raiseError_cmd (e : ErrorCause) (s : State) : (raiseError e s).cmd = s.cmd := rfl
@[simp] theorem raiseError_din (e : ErrorCause) (s : State) : (raiseError e s).din = s.din := rfl
@[simp] theorem raiseError_rspReady (e : ErrorCause) (s : State) : (raiseError e s).rspReady = s.rspReady := rfl
@[simp] theorem raiseError_doutReady (e : ErrorCause) (s : State) : (raiseError e s).doutReady = s.doutReady := rfl
@[simp] theorem raiseError_rst (e : ErrorCause) (s : State) : (raiseError e s).rst = s.rst := rfl
@[simp] theorem raiseError_offer (e : ErrorCause) (s : State) : (raiseError e s).offer = s.offer ++ [.rsp (errorResponse e)] := rfl
@[simp] theorem raiseError_taken (e : ErrorCause) (s : State) : (raiseError e s).taken = s.taken := rfl
@[simp] theorem raiseError_resets (e : ErrorCause) (s : State) : (raiseError e s).resets = s.resets := rfl

/-! ### `State.awaitPayload` -/

@[simp] theorem State.awaitPayload_toRegs (len : BitVec 28) (s : State) : (s.awaitPayload len).toRegs = s.toRegs := rfl
@[simp] theorem State.awaitPayload_waiting (len : BitVec 28) (s : State) : (s.awaitPayload len).waiting = some len := rfl
@[simp] theorem State.awaitPayload_cmd (len : BitVec 28) (s : State) : (s.awaitPayload len).cmd = s.cmd := rfl
@[simp] theorem State.awaitPayload_din (len : BitVec 28) (s : State) : (s.awaitPayload len).din = s.din := rfl
@[simp] theorem State.awaitPayload_rspReady (len : BitVec 28) (s : State) : (s.awaitPayload len).rspReady = s.rspReady := rfl
@[simp] theorem State.awaitPayload_doutReady (len : BitVec 28) (s : State) : (s.awaitPayload len).doutReady = s.doutReady := rfl
@[simp] theorem State.awaitPayload_rst (len : BitVec 28) (s : State) : (s.awaitPayload len).rst = s.rst := rfl
@[simp] theorem State.awaitPayload_offer (len : BitVec 28) (s : State) : (s.awaitPayload len).offer = s.offer := rfl
@[simp] theorem State.awaitPayload_taken (len : BitVec 28) (s : State) : (s.awaitPayload len).taken = s.taken := rfl
@[simp] theorem State.awaitPayload_resets (len : BitVec 28) (s : State) : (s.awaitPayload len).resets = s.resets := rfl

/-! ### `State.hostTake` -/

@[simp] theorem State.hostTake_toRegs (n : Nat) (s : State) : (s.hostTake n).toRegs = s.toRegs := rfl
@[simp] theorem State.hostTake_waiting (n : Nat) (s : State) : (s.hostTake n).waiting = s.waiting := rfl
@[simp] theorem State.hostTake_cmd (n : Nat) (s : State) : (s.hostTake n).cmd = s.cmd := rfl
@[simp] theorem State.hostTake_din (n : Nat) (s : State) : (s.hostTake n).din = s.din := rfl
@[simp] theorem State.hostTake_rspReady (n : Nat) (s : State) : (s.hostTake n).rspReady = s.rspReady := rfl
@[simp] theorem State.hostTake_doutReady (n : Nat) (s : State) : (s.hostTake n).doutReady = s.doutReady := rfl
@[simp] theorem State.hostTake_rst (n : Nat) (s : State) : (s.hostTake n).rst = s.rst := rfl
@[simp] theorem State.hostTake_offer (n : Nat) (s : State) : (s.hostTake n).offer = s.offer.drop n := rfl
@[simp] theorem State.hostTake_taken (n : Nat) (s : State) : (s.hostTake n).taken = s.taken ++ s.offer.take n := rfl
@[simp] theorem State.hostTake_resets (n : Nat) (s : State) : (s.hostTake n).resets = s.resets := rfl

/-! ### `State.drain` -/

@[simp] theorem State.drain_toRegs (s : State) : (s.drain).toRegs = s.toRegs := rfl
@[simp] theorem State.drain_waiting (s : State) : (s.drain).waiting = s.waiting := rfl
@[simp] theorem State.drain_cmd (s : State) : (s.drain).cmd = s.cmd := rfl
@[simp] theorem State.drain_din (s : State) : (s.drain).din = s.din := rfl
@[simp] theorem State.drain_rspReady (s : State) : (s.drain).rspReady = s.rspReady := rfl
@[simp] theorem State.drain_doutReady (s : State) : (s.drain).doutReady = s.doutReady := rfl
@[simp] theorem State.drain_rst (s : State) : (s.drain).rst = s.rst := rfl
theorem State.drain_offer (s : State) : (s.drain).offer = s.offer.drop s.readyCount := rfl
theorem State.drain_taken (s : State) : (s.drain).taken = s.taken ++ s.offer.take s.readyCount := rfl
@[simp] theorem State.drain_resets (s : State) : (s.drain).resets = s.resets := rfl

/-! ### `State.hostCommand` -/

@[simp] theorem State.hostCommand_toRegs (w : BitVec 32) (s : State) : (s.hostCommand w).toRegs = s.toRegs := rfl
@[simp] theorem State.hostCommand_waiting (w : BitVec 32) (s : State) : (s.hostCommand w).waiting = s.waiting := rfl
@[simp] theorem State.hostCommand_cmd (w : BitVec 32) (s : State) : (s.hostCommand w).cmd = s.cmd ++ [w] := rfl
@[simp] theorem State.hostCommand_din (w : BitVec 32) (s : State) : (s.hostCommand w).din = s.din := rfl
@[simp] theorem State.hostCommand_rspReady (w : BitVec 32) (s : State) : (s.hostCommand w).rspReady = s.rspReady := rfl
@[simp] theorem State.hostCommand_doutReady (w : BitVec 32) (s : State) : (s.hostCommand w).doutReady = s.doutReady := rfl
@[simp] theorem State.hostCommand_rst (w : BitVec 32) (s : State) : (s.hostCommand w).rst = s.rst := rfl
@[simp] theorem State.hostCommand_offer (w : BitVec 32) (s : State) : (s.hostCommand w).offer = s.offer := rfl
@[simp] theorem State.hostCommand_taken (w : BitVec 32) (s : State) : (s.hostCommand w).taken = s.taken := rfl
@[simp] theorem State.hostCommand_resets (w : BitVec 32) (s : State) : (s.hostCommand w).resets = s.resets := rfl

/-! ### `State.hostPayload` -/

@[simp] theorem State.hostPayload_toRegs (b : List Byte) (s : State) : (s.hostPayload b).toRegs = s.toRegs := rfl
@[simp] theorem State.hostPayload_waiting (b : List Byte) (s : State) : (s.hostPayload b).waiting = s.waiting := rfl
@[simp] theorem State.hostPayload_cmd (b : List Byte) (s : State) : (s.hostPayload b).cmd = s.cmd := rfl
@[simp] theorem State.hostPayload_din (b : List Byte) (s : State) : (s.hostPayload b).din = s.din ++ b := rfl
@[simp] theorem State.hostPayload_rspReady (b : List Byte) (s : State) : (s.hostPayload b).rspReady = s.rspReady := rfl
@[simp] theorem State.hostPayload_doutReady (b : List Byte) (s : State) : (s.hostPayload b).doutReady = s.doutReady := rfl
@[simp] theorem State.hostPayload_rst (b : List Byte) (s : State) : (s.hostPayload b).rst = s.rst := rfl
@[simp] theorem State.hostPayload_offer (b : List Byte) (s : State) : (s.hostPayload b).offer = s.offer := rfl
@[simp] theorem State.hostPayload_taken (b : List Byte) (s : State) : (s.hostPayload b).taken = s.taken := rfl
@[simp] theorem State.hostPayload_resets (b : List Byte) (s : State) : (s.hostPayload b).resets = s.resets := rfl

/-! ### `State.hostSend` -/

@[simp] theorem State.hostSend_toRegs (x : Transaction) (s : State) : (s.hostSend x).toRegs = s.toRegs := rfl
@[simp] theorem State.hostSend_waiting (x : Transaction) (s : State) : (s.hostSend x).waiting = s.waiting := rfl
@[simp] theorem State.hostSend_cmd (x : Transaction) (s : State) : (s.hostSend x).cmd = s.cmd ++ [x.word] := rfl
@[simp] theorem State.hostSend_din (x : Transaction) (s : State) : (s.hostSend x).din = s.din ++ x.payload := rfl
@[simp] theorem State.hostSend_rspReady (x : Transaction) (s : State) : (s.hostSend x).rspReady = s.rspReady := rfl
@[simp] theorem State.hostSend_doutReady (x : Transaction) (s : State) : (s.hostSend x).doutReady = s.doutReady := rfl
@[simp] theorem State.hostSend_rst (x : Transaction) (s : State) : (s.hostSend x).rst = s.rst := rfl
@[simp] theorem State.hostSend_offer (x : Transaction) (s : State) : (s.hostSend x).offer = s.offer := rfl
@[simp] theorem State.hostSend_taken (x : Transaction) (s : State) : (s.hostSend x).taken = s.taken := rfl
@[simp] theorem State.hostSend_resets (x : Transaction) (s : State) : (s.hostSend x).resets = s.resets := rfl

/-! ### `State.hostReset` -/

@[simp] theorem State.hostReset_toRegs (s : State) : (s.hostReset).toRegs = s.toRegs := rfl
@[simp] theorem State.hostReset_waiting (s : State) : (s.hostReset).waiting = s.waiting := rfl
@[simp] theorem State.hostReset_cmd (s : State) : (s.hostReset).cmd = s.cmd := rfl
@[simp] theorem State.hostReset_din (s : State) : (s.hostReset).din = s.din := rfl
@[simp] theorem State.hostReset_rspReady (s : State) : (s.hostReset).rspReady = s.rspReady := rfl
@[simp] theorem State.hostReset_doutReady (s : State) : (s.hostReset).doutReady = s.doutReady := rfl
@[simp] theorem State.hostReset_rst (s : State) : (s.hostReset).rst = true := rfl
@[simp] theorem State.hostReset_offer (s : State) : (s.hostReset).offer = s.offer := rfl
@[simp] theorem State.hostReset_taken (s : State) : (s.hostReset).taken = s.taken := rfl
@[simp] theorem State.hostReset_resets (s : State) : (s.hostReset).resets = s.resets := rfl

/-! ### `State.placeCommand` -/

@[simp] theorem State.placeCommand_toRegs (w : BitVec 32) (s : State) : (s.placeCommand w).toRegs = s.toRegs := rfl
@[simp] theorem State.placeCommand_waiting (w : BitVec 32) (s : State) : (s.placeCommand w).waiting = none := rfl
@[simp] theorem State.placeCommand_cmd (w : BitVec 32) (s : State) : (s.placeCommand w).cmd = w :: s.cmd := rfl
@[simp] theorem State.placeCommand_din (w : BitVec 32) (s : State) : (s.placeCommand w).din = s.din := rfl
@[simp] theorem State.placeCommand_rspReady (w : BitVec 32) (s : State) : (s.placeCommand w).rspReady = s.rspReady := rfl
@[simp] theorem State.placeCommand_doutReady (w : BitVec 32) (s : State) : (s.placeCommand w).doutReady = s.doutReady := rfl
@[simp] theorem State.placeCommand_rst (w : BitVec 32) (s : State) : (s.placeCommand w).rst = false := rfl
@[simp] theorem State.placeCommand_offer (w : BitVec 32) (s : State) : (s.placeCommand w).offer = [] := rfl
@[simp] theorem State.placeCommand_taken (w : BitVec 32) (s : State) : (s.placeCommand w).taken = s.taken ++ s.offer := rfl
@[simp] theorem State.placeCommand_resets (w : BitVec 32) (s : State) : (s.placeCommand w).resets = s.resets := rfl

/-! ### `State.hardReset` -/

@[simp] theorem State.hardReset_waiting (s : State) : s.hardReset.waiting = none := rfl
@[simp] theorem State.hardReset_cmd (s : State) : s.hardReset.cmd = s.cmd := rfl
@[simp] theorem State.hardReset_din (s : State) : s.hardReset.din = s.din.drop s.payloadLost := rfl
@[simp] theorem State.hardReset_rspReady (s : State) : s.hardReset.rspReady = s.rspReady := rfl
@[simp] theorem State.hardReset_doutReady (s : State) : s.hardReset.doutReady = s.doutReady := rfl
@[simp] theorem State.hardReset_rst (s : State) : s.hardReset.rst = false := rfl
@[simp] theorem State.hardReset_offer (s : State) : s.hardReset.offer = [] := rfl
@[simp] theorem State.hardReset_taken (s : State) : s.hardReset.taken = s.taken ++ s.offer.take (min (Config.takenAtReset s.resets) s.readyCount) := rfl
@[simp] theorem State.hardReset_resets (s : State) : s.hardReset.resets = s.resets + 1 := rfl
@[simp] theorem State.hardReset_fin (s : State) : s.hardReset.fin = true := rfl
@[simp] theorem State.hardReset_var (s : State) : s.hardReset.var = Config.resetVar s.resets := rfl
@[simp] theorem State.hardReset_H (s : State) : s.hardReset.H = Config.resetH s.resets := rfl
@[simp] theorem State.hardReset_ctr (s : State) : s.hardReset.ctr = Config.resetCtr s.resets := rfl
@[simp] theorem State.hardReset_BUF (s : State) : s.hardReset.BUF = Config.resetBuf s.resets := rfl
@[simp] theorem State.hardReset_buflen (s : State) : s.hardReset.buflen = Config.resetBuflen s.resets := rfl

/-! ### `State.reset` -/

@[simp] theorem State.reset_fin : State.reset.fin = true := rfl
@[simp] theorem State.reset_waiting : State.reset.waiting = none := rfl
@[simp] theorem State.reset_cmd : State.reset.cmd = [] := rfl
@[simp] theorem State.reset_din : State.reset.din = [] := rfl
@[simp] theorem State.reset_rspReady : State.reset.rspReady = true := rfl
@[simp] theorem State.reset_doutReady : State.reset.doutReady = true := rfl
@[simp] theorem State.reset_rst : State.reset.rst = false := rfl
@[simp] theorem State.reset_offer : State.reset.offer = [] := rfl
@[simp] theorem State.reset_taken : State.reset.taken = [] := rfl
@[simp] theorem State.reset_resets : State.reset.resets = 0 := rfl

end Sys2Proof.Machine
end

