-- ==== Sys2Proof/Laws/Operands.lean ====
section
/-! SUPPORT. What the operand forms do: variants and sizes, registers at the width of a variant, lengths of byte strings. -/

namespace Sys2Proof.Machine

/-! ### Variants and sizes -/

@[simp] theorem variantOf_size (v : Variant) : variantOf v.size = some v := by cases v <;> decide

/-- A size names a variant exactly when it is that variant's size. -/
theorem variantOf_eq_some {x : BitVec 10} {v : Variant} : variantOf x = some v ↔ x = v.size := by
  refine ⟨fun h => ?_, fun h => h ▸ variantOf_size v⟩
  unfold variantOf at h
  split_ifs at h <;> cases h <;> assumption

theorem variantOf_eq_none {x : BitVec 10} : variantOf x = none ↔ ∀ v : Variant, x ≠ v.size := by
  rw [Option.eq_none_iff_forall_not_mem]
  exact forall_congr' fun v => not_congr variantOf_eq_some

theorem Variant_size_injective {v w : Variant} (h : v.size = w.size) : v = w := by
  have := variantOf_eq_some.mpr h
  simpa using this

/-- The word width is 32 or 64. -/
theorem Variant_W_cases (v : Variant) : v.W = 32 ∨ v.W = 64 := by cases v <;> simp [Variant.W]

@[simp] theorem Variant_W_le (v : Variant) : v.W ≤ 64 := by cases v <;> decide
@[simp] theorem Variant_two_W_le (v : Variant) : 2 * v.W ≤ 128 := by cases v <;> decide
theorem Variant_blockBytes_le (v : Variant) : blockBytes v.W ≤ 128 := by cases v <;> decide
theorem Variant_blockBytes_pos (v : Variant) : 0 < blockBytes v.W := by cases v <;> decide

/-- A block divides the counter's range evenly, so that the counter stays a multiple of `BS` when it wraps (R36 I3). -/
theorem Variant_blockBytes_dvd (v : Variant) : blockBytes v.W ∣ 2 ^ (2 * v.W) := by
  cases v <;> decide

@[simp] theorem Variant_ctrUnit (v : Variant) : v.params.ctrUnit = 8 := by cases v <;> rfl
@[simp] theorem Variant_salt (v : Variant) : v.params.salt = #v[0, 0, 0, 0] := by cases v <;> rfl
@[simp] theorem Variant_flagMask (v : Variant) : v.params.flagMask = #v[0, 0, 0, 0] := by cases v <;> rfl
theorem Variant_digestBytes (v : Variant) : v.params.digestBytes = v.size.toNat / 8 := by cases v <;> rfl
theorem Variant_digestBytes_le (v : Variant) : v.params.digestBytes ≤ 8 * wordBytes v.W := by cases v <;> decide

/-! ### Registers at the width of a variant -/

/-- The low part of a merged register is what was written. -/
theorem mergeLow_low {k W : Nat} (hW : W ≤ k) (old : BitVec k) (new : BitVec W) : (mergeLow old new).setWidth W = new := by
  ext i hi
  have : i < k := by omega
  simp [mergeLow, hi, this]

/-- The high part of a merged register is what it held (log entry 4). -/
theorem mergeLow_high {k W : Nat} (old : BitVec k) (new : BitVec W) : mergeLow old new >>> W = old >>> W := by
  ext i hi
  simpa [mergeLow] using fun h => BitVec.lt_of_getLsbD h

@[simp] theorem chain_setChain (v : Variant) (h : Chain v.W) (r : Regs) : (r.setChain h).chain v.W = h := by
  ext i hi
  simp [Regs.chain, Regs.setChain, mergeLow_low]

@[simp] theorem counter_setCounter (v : Variant) (n : BitVec (2 * v.W)) (r : Regs) : (r.setCounter n).counter v.W = n := by
  simp [Regs.counter, mergeLow_low]

@[simp] theorem chain_setCounter {W V : Nat} (n : BitVec (2 * V)) (r : Regs) : (r.setCounter n).chain W = r.chain W := rfl
@[simp] theorem counter_setChain {W V : Nat} (h : Chain V) (r : Regs) : (r.setChain h).counter W = r.counter W := rfl
@[simp] theorem chain_storeByte {W : Nat} (b : Byte) (r : Regs) : (r.storeByte b).chain W = r.chain W := rfl
@[simp] theorem counter_storeByte {W : Nat} (b : Byte) (r : Regs) : (r.storeByte b).counter W = r.counter W := rfl
@[simp] theorem tail_setChain {V : Nat} (h : Chain V) (r : Regs) : (r.setChain h).tail = r.tail := rfl
@[simp] theorem tail_setCounter {V : Nat} (n : BitVec (2 * V)) (r : Regs) : (r.setCounter n).tail = r.tail := rfl
@[simp] theorem chain_makeDead {W : Nat} (r : Regs) : r.makeDead.chain W = r.chain W := rfl
@[simp] theorem counter_makeDead {W : Nat} (r : Regs) : r.makeDead.counter W = r.counter W := rfl
@[simp] theorem tail_makeDead (r : Regs) : r.makeDead.tail = r.tail := rfl

@[simp] theorem chain_startHash (v : Variant) (r : Regs) : (startHash v r).chain v.W = v.params.iv :=
  chain_setChain v v.params.iv r

@[simp] theorem counter_startHash (v : Variant) (r : Regs) : (startHash v r).counter v.W = 0 :=
  counter_setCounter v 0 (r.setChain v.params.iv)

@[simp] theorem tail_startHash (v : Variant) (r : Regs) : (startHash v r).tail = [] := by
  simp [Regs.tail]

/-! ### The buffer -/

theorem tail_length (r : Regs) (h : r.buflen.toNat ≤ 128) : r.tail.length = r.buflen.toNat := by
  simp [Regs.tail, h]

/-- Storing a byte inside the buffer appends it to the valid bytes (R68). -/
theorem tail_storeByte (b : Byte) (r : Regs) (h : r.buflen.toNat < 128) : (r.storeByte b).tail = r.tail ++ [b] := by
  have hn : (r.buflen + 1).toNat = r.buflen.toNat + 1 := by
    rw [BitVec.toNat_add]; simp; omega
  apply List.ext_getElem?
  intro i
  simp only [Regs.tail, Regs.storeByte_BUF, Regs.storeByte_buflen, hn, List.getElem?_take, Vector.getElem?_toList, List.getElem?_append,
    List.length_take, Vector.length_toList, Vector.getElem?_setIfInBounds]
  have hm : min r.buflen.toNat 128 = r.buflen.toNat := by omega
  rw [hm]
  rcases Nat.lt_trichotomy i r.buflen.toNat with hi | hi | hi
  · simp [hi, Nat.lt_succ_of_lt hi, Nat.ne_of_gt hi]
  · subst hi; simp [h]
  · have h1 : ¬ i < r.buflen.toNat + 1 := by omega
    have h2 : ¬ i < r.buflen.toNat := by omega
    have h3 : i - r.buflen.toNat ≠ 0 := by omega
    simp [h1, h2, h3]

/-! ### Lengths -/

@[simp] theorem beStore_length (k : Nat) {m : Nat} (x : BitVec m) : (beStore k x).length = k := by simp [beStore]

@[simp] theorem zeros_length (k : Nat) : (zeros k).length = k := by simp [zeros]

@[simp] theorem chainBytes_length {W : Nat} (h : Chain W) : (chainBytes h).length = 8 * wordBytes W := by
  simp [chainBytes, List.length_flatMap, List.map_const']
  omega

theorem digestOf_length {W : Nat} (n : Nat) (h : Chain W) (hn : n ≤ 8 * wordBytes W) : (digestOf n h).length = n := by
  simp [digestOf, hn]

end Sys2Proof.Machine
end

