-- ==== Sys2Proof/Laws/Ops.lean ====
section
/-! SUPPORT. What the shared operations do: channels, absorbing, finalizing, the live engine's variant. -/

namespace Sys2Proof.Machine

/-! ### Channels -/

/-- `DinPop` succeeds exactly when the bytes are there, and takes the first `n`. -/
theorem dinPop_eq_some {n : Nat} {s t : State} {b : List Byte} : s.dinPop n = some (b, t) ↔
    n ≤ s.din.length ∧ b = s.din.take n ∧ t = s.afterPayload n := by
  unfold State.dinPop
  split
  · constructor
    · intro h; cases h
    · rintro ⟨h, -⟩; omega
  · simp only [Option.some.injEq, Prod.mk.injEq]
    constructor
    · rintro ⟨rfl, rfl⟩; exact ⟨by omega, rfl, rfl⟩
    · rintro ⟨-, rfl, rfl⟩; exact ⟨rfl, rfl⟩

theorem dinPop_eq_none {n : Nat} {s : State} : s.dinPop n = none ↔ s.din.length < n := by
  unfold State.dinPop
  split <;> simp_all

theorem dinPop_of_le {n : Nat} {s : State} (h : n ≤ s.din.length) :
    s.dinPop n = some (s.din.take n, s.afterPayload n) :=
  dinPop_eq_some.mpr ⟨h, rfl, rfl⟩

/-- Taking offered events moves them, in order, from what is offered to what is taken. -/
@[simp] theorem output_hostTake (n : Nat) (s : State) : (s.hostTake n).output = s.output := by
  simp [State.output]

@[simp] theorem output_drain (s : State) : s.drain.output = s.output := output_hostTake _ s

@[simp] theorem drain_of_offer_nil {s : State} (h : s.offer = []) : s.drain = s := by
  cases s; simp_all [State.drain, State.hostTake]

/-- A host that is ready for everything takes everything. -/
theorem drain_offer_of_ready {s : State} (hr : s.rspReady = true) (hd : s.doutReady = true) : s.drain.offer = [] := by
  have : s.offer.takeWhile s.accepts = s.offer := by
    rw [List.takeWhile_eq_self_iff]
    intro e _
    cases e <;> simp [State.accepts, hr, hd]
  simp [State.drain_offer, State.readyCount, this]

/-- A reset loses no payload byte where no `UPDATE` waits. -/
@[simp] theorem payloadLost_of_waiting_none {s : State} (h : s.waiting = none) : s.payloadLost = 0 := by
  simp [State.payloadLost, h]

/-- A reset loses at most the `len` bytes the waiting `UPDATE` can have taken (R51). -/
theorem payloadLost_le {s : State} {len : BitVec 28} (h : s.waiting = some len) : s.payloadLost ≤ len.toNat := by
  simp [State.payloadLost, h]

/-! ### The live engine -/

theorem liveVariant_eq_ok {r : Regs} {v : Variant} :
    r.liveVariant = .ok v ↔ r.var = v.size ∧ r.buflen.toNat < blockBytes v.W := by
  unfold Regs.liveVariant
  split
  · rename_i h
    rw [variantOf_eq_none] at h
    simp [h v]
  · rename_i w h
    rw [variantOf_eq_some] at h
    split
    · rename_i hb
      constructor
      · rintro ⟨⟩; exact ⟨h, hb⟩
      · rintro ⟨h', -⟩; rw [Variant_size_injective (h.symm.trans h')]
    · rename_i hb
      constructor
      · rintro ⟨⟩
      · rintro ⟨h', hb'⟩; rw [Variant_size_injective (h.symm.trans h')] at hb; exact absurd hb' hb

/-- The faults of a live engine's check say which of its two parts fails (log entry 8). -/
theorem liveVariant_eq_error {r : Regs} {f : Fault} (h : r.liveVariant = .error f) :
    (f = .varNotAVariant ∧ variantOf r.var = none) ∨
    (f = .buflenNotBelowBlock ∧ ∃ v, variantOf r.var = some v ∧ blockBytes v.W ≤ r.buflen.toNat) := by
  unfold Regs.liveVariant at h
  split at h
  · rename_i hv; cases h; exact .inl ⟨rfl, hv⟩
  · rename_i v hv
    split at h
    · cases h
    · cases h; exact .inr ⟨rfl, v, hv, by omega⟩

theorem liveVariant_of_liveAs {r : Regs} {v : Variant} (h : r.var = v.size ∧ r.buflen.toNat < blockBytes v.W) :
    r.liveVariant = .ok v := liveVariant_eq_ok.mpr h

/-! ### Absorb -/

@[simp] theorem absorb_fin {W : Nat} (p : Params W) (r : Regs) (b : Byte) : (absorb p r b).fin = r.fin := by
  unfold absorb; dsimp only; split <;> simp

@[simp] theorem absorb_var {W : Nat} (p : Params W) (r : Regs) (b : Byte) : (absorb p r b).var = r.var := by
  unfold absorb; dsimp only; split <;> simp

theorem absorb_BUF {W : Nat} (p : Params W) (r : Regs) (b : Byte) :
    (absorb p r b).BUF = r.BUF.setIfInBounds r.buflen.toNat b := by
  unfold absorb; dsimp only; split <;> simp

@[simp] theorem absorbAll_nil {W : Nat} (p : Params W) (r : Regs) : absorbAll p [] r = r := rfl

@[simp] theorem absorbAll_cons {W : Nat} (p : Params W) (b : Byte) (l : List Byte) (r : Regs) :
    absorbAll p (b :: l) r = absorbAll p l (absorb p r b) := rfl

theorem absorbAll_append {W : Nat} (p : Params W) (a b : List Byte) (r : Regs) :
    absorbAll p (a ++ b) r = absorbAll p b (absorbAll p a r) := by
  simp [absorbAll, List.foldl_append]

@[simp] theorem absorbAll_fin {W : Nat} (p : Params W) (l : List Byte) (r : Regs) : (absorbAll p l r).fin = r.fin := by
  induction l generalizing r with
  | nil => rfl
  | cons b l ih => simp [ih]

@[simp] theorem absorbAll_var {W : Nat} (p : Params W) (l : List Byte) (r : Regs) : (absorbAll p l r).var = r.var := by
  induction l generalizing r with
  | nil => rfl
  | cons b l ih => simp [ih]

/-- `buflen` goes up by one for a stored byte: it does not wrap inside the buffer. -/
theorem buflen_succ {r : Regs} (h : r.buflen.toNat < 128) : (r.buflen + 1).toNat = r.buflen.toNat + 1 := by
  rw [BitVec.toNat_add]; simp; omega

/-- Below a full buffer `Absorb` only stores the byte. -/
theorem absorb_of_lt {v : Variant} {r : Regs} (b : Byte) (h : r.buflen.toNat + 1 < blockBytes v.W) :
    absorb v.params r b = r.storeByte b := by
  have h2 : r.buflen.toNat < 128 := by have := Variant_blockBytes_le v; omega
  unfold absorb
  dsimp only
  rw [if_neg]
  rw [Regs.storeByte_buflen, buflen_succ h2]
  omega

/-- The byte that fills the buffer is stored and the buffer compressed. -/
theorem absorb_of_eq {v : Variant} {r : Regs} (b : Byte) (h : r.buflen.toNat + 1 = blockBytes v.W) :
    absorb v.params r b = compressBuffer v.params (r.storeByte b) := by
  have h2 : r.buflen.toNat < 128 := by have := Variant_blockBytes_le v; omega
  unfold absorb
  dsimp only
  rw [if_pos]
  rw [Regs.storeByte_buflen, buflen_succ h2, h]

/-- The block that is compressed is the valid bytes with the one that fills the buffer. -/
theorem block_storeByte {v : Variant} {r : Regs} (b : Byte) (h : r.buflen.toNat + 1 = blockBytes v.W) :
    (r.storeByte b).block v.W = r.tail ++ [b] := by
  have h2 : r.buflen.toNat < 128 := by have := Variant_blockBytes_le v; omega
  rw [← tail_storeByte b r h2, Regs.block, Regs.tail, Regs.storeByte_buflen, buflen_succ h2, h]

@[simp] theorem chain_compressBuffer (v : Variant) (r : Regs) : (compressBuffer v.params r).chain v.W =
    compressBlock v.params (r.chain v.W) (r.block v.W)
      (bitCount v.params (r.counter v.W + BitVec.ofNat (2 * v.W) (blockBytes v.W))) false :=
  chain_setChain v _ (r.setCounter _)

@[simp] theorem counter_compressBuffer (v : Variant) (r : Regs) : (compressBuffer v.params r).counter v.W =
    r.counter v.W + BitVec.ofNat (2 * v.W) (blockBytes v.W) :=
  counter_setCounter v _ r

@[simp] theorem tail_compressBuffer {W : Nat} (p : Params W) (r : Regs) : (compressBuffer p r).tail = [] := by
  simp [Regs.tail]

/-- `Absorb` keeps `buflen` below the block size. -/
theorem absorb_buflen {v : Variant} {r : Regs} (b : Byte) (h : r.buflen.toNat < blockBytes v.W) :
    (absorb v.params r b).buflen.toNat = (r.buflen.toNat + 1) % blockBytes v.W := by
  have h2 : r.buflen.toNat < 128 := by have := Variant_blockBytes_le v; omega
  rcases Nat.lt_or_eq_of_le (Nat.succ_le_of_lt h) with hl | he
  · rw [absorb_of_lt b hl, Regs.storeByte_buflen, buflen_succ h2, Nat.mod_eq_of_lt hl]
  · rw [absorb_of_eq b he]
    simp [show r.buflen.toNat + 1 = blockBytes v.W from he]

theorem absorbAll_buflen {v : Variant} (l : List Byte) {r : Regs} (h : r.buflen.toNat < blockBytes v.W) :
    (absorbAll v.params l r).buflen.toNat = (r.buflen.toNat + l.length) % blockBytes v.W := by
  induction l generalizing r with
  | nil => simp [Nat.mod_eq_of_lt h]
  | cons b l ih =>
    have hb := absorb_buflen b h
    rw [absorbAll_cons, ih (hb ▸ Nat.mod_lt _ (Variant_blockBytes_pos v)), hb, Nat.mod_add_mod, List.length_cons]
    congr 1; omega

/-! ### Finalize -/

@[simp] theorem finalize_fin {W : Nat} (p : Params W) (r : Regs) : (finalize p r).1.fin = r.fin := rfl
@[simp] theorem finalize_var {W : Nat} (p : Params W) (r : Regs) : (finalize p r).1.var = r.var := rfl
@[simp] theorem finalize_ctr {W : Nat} (p : Params W) (r : Regs) : (finalize p r).1.ctr = r.ctr := rfl
@[simp] theorem finalize_BUF {W : Nat} (p : Params W) (r : Regs) : (finalize p r).1.BUF = r.BUF := rfl
@[simp] theorem finalize_buflen {W : Nat} (p : Params W) (r : Regs) : (finalize p r).1.buflen = r.buflen := rfl

theorem finalize_digest {W : Nat} (p : Params W) (r : Regs) :
    (finalize p r).2 = (finalizeFrom p (r.chain W) (r.counter W) r.tail).2 := rfl

@[simp] theorem chain_finalize (v : Variant) (r : Regs) : (finalize v.params r).1.chain v.W =
    (finalizeFrom v.params (r.chain v.W) (r.counter v.W) r.tail).1 :=
  chain_setChain v _ r

theorem finalizeFrom_digest {W : Nat} (p : Params W) (h : Chain W) (n : BitVec (2 * W)) (tail : List Byte) :
    (finalizeFrom p h n tail).2 = digestOf p.digestBytes (finalizeFrom p h n tail).1 := rfl

/-- A digest has `N` bytes, whatever was hashed (R109). -/
theorem finalizeFrom_digest_length (v : Variant) (h : Chain v.W) (n : BitVec (2 * v.W)) (tail : List Byte) :
    (finalizeFrom v.params h n tail).2.length = v.params.digestBytes :=
  digestOf_length _ _ (Variant_digestBytes_le v)

end Sys2Proof.Machine
end

