-- ==== Sys2Proof/Laws/PerInstr.lean ====
section
/-! SUPPORT. Per-instruction facts about the command set as syntax. Family `TableRow`: the encoding of an instruction lies in its row of
spec/opcode_table.json, that is, it agrees with the row's match under the row's mask. -/

namespace Sys2Proof.Laws.TableRow

/-- The encoded word agrees with the row's match under the row's mask (R82, R83, R84). -/
def Statement (i : Instr) : Prop := encode i &&& tableMask i = tableMatch i

/-- A concatenation under a mask that keeps the upper part only is the upper part. -/
theorem append_and_high {m k : Nat} (x : BitVec m) (y : BitVec k) :
    (x ++ y) &&& (BitVec.allOnes m ++ (0 : BitVec k)) = x ++ (0 : BitVec k) := by
  ext i hi
  simp only [BitVec.getElem_and, BitVec.getElem_append]
  split <;> simp

theorem init (size : BitVec 10) : Statement (.init size) := append_and_high (1#4 ++ 0#18) size

theorem update (len : BitVec 28) : Statement (.update len) := append_and_high 2#4 len

theorem final : Statement .final := rfl

end Sys2Proof.Laws.TableRow
end

