-- ==== Sys2Proof/Laws/Step.lean ====
section
/-! SUPPORT. What a command and a step can do, said once (inversion lemmas); later proofs cite these and do not unfold. -/

namespace Sys2Proof.Machine

/-! ### Commands -/

theorem execInit_of_size (v : Variant) (s : State) :
    execInit v.size s = .next (respondOk (s.withRegs (startHash v s.toRegs))) := by
  simp [execInit]

theorem execInit_of_none {size : BitVec 10} (h : variantOf size = none) (s : State) :
    execInit size s = .next (raiseError .invalidVariant s) := by
  simp [execInit, h]

/-- Everything `INIT` can do. -/
theorem execInit_cases {size : BitVec 10} {s t : State} (h : execInit size s = .next t) :
    (variantOf size = none ∧ t = raiseError .invalidVariant s) ∨
    (∃ v : Variant, size = v.size ∧ t = respondOk (s.withRegs (startHash v s.toRegs))) := by
  unfold execInit at h
  split at h
  · rename_i hn; cases h; exact .inl ⟨hn, rfl⟩
  · rename_i v hv; cases h; exact .inr ⟨v, variantOf_eq_some.mp hv, rfl⟩

theorem execUpdate_of_short {len : BitVec 28} {s : State} (h : s.din.length < len.toNat) :
    execUpdate len s = .next (s.awaitPayload len) := by
  simp [execUpdate, dinPop_eq_none.mpr h]

theorem execUpdate_of_dead {len : BitVec 28} {s : State} (hf : s.fin = true) (h : len.toNat ≤ s.din.length) :
    execUpdate len s = .next (raiseError .invalidState (s.afterPayload len.toNat)) := by
  simp [execUpdate, dinPop_of_le h, Regs.dead, hf]

theorem execUpdate_of_live {len : BitVec 28} {s : State} {v : Variant} (hf : s.fin = false) (hv : s.liveVariant = .ok v)
    (h : len.toNat ≤ s.din.length) :
    execUpdate len s = .next (respondOk ((s.afterPayload len.toNat).withRegs
      (absorbAll v.params (s.din.take len.toNat) s.toRegs))) := by
  simp [execUpdate, dinPop_of_le h, Regs.dead, hf, hv]

/-- Everything `UPDATE` can do when it answers a next state. -/
theorem execUpdate_cases {len : BitVec 28} {s t : State} (h : execUpdate len s = .next t) :
    (s.din.length < len.toNat ∧ t = s.awaitPayload len) ∨
    (len.toNat ≤ s.din.length ∧ s.fin = true ∧
      t = raiseError .invalidState (s.afterPayload len.toNat)) ∨
    (∃ v : Variant, len.toNat ≤ s.din.length ∧ s.fin = false ∧ s.liveVariant = .ok v ∧
      t = respondOk ((s.afterPayload len.toNat).withRegs
        (absorbAll v.params (s.din.take len.toNat) s.toRegs))) := by
  rcases Nat.lt_or_ge s.din.length len.toNat with hl | hl
  · rw [execUpdate_of_short hl] at h; cases h; exact .inl ⟨hl, rfl⟩
  · cases hf : s.fin with
    | true => rw [execUpdate_of_dead hf hl] at h; cases h; exact .inr (.inl ⟨hl, rfl, rfl⟩)
    | false =>
      cases hv : s.liveVariant with
      | ok v => rw [execUpdate_of_live hf hv hl] at h; cases h; exact .inr (.inr ⟨v, hl, rfl, rfl, rfl⟩)
      | error f => simp [execUpdate, dinPop_of_le hl, Regs.dead, hf, hv] at h

theorem execFinal_of_dead {s : State} (hf : s.fin = true) : execFinal s = .next (raiseError .invalidState s) := by
  simp [execFinal, Regs.dead, hf]

theorem execFinal_of_live {s : State} {v : Variant} (hf : s.fin = false) (hv : s.liveVariant = .ok v) :
    execFinal s = .next (respondDigest (finalize v.params s.toRegs).2 v.params.digestBytes
      (s.withRegs (finalize v.params s.toRegs).1.makeDead)) := by
  simp [execFinal, Regs.dead, hf, hv]

/-- Everything `FINAL` can do when it answers a next state. -/
theorem execFinal_cases {s t : State} (h : execFinal s = .next t) :
    (s.fin = true ∧ t = raiseError .invalidState s) ∨
    (∃ v : Variant, s.fin = false ∧ s.liveVariant = .ok v ∧
      t = respondDigest (finalize v.params s.toRegs).2 v.params.digestBytes
        (s.withRegs (finalize v.params s.toRegs).1.makeDead)) := by
  cases hf : s.fin with
  | true => rw [execFinal_of_dead hf] at h; cases h; exact .inl ⟨rfl, rfl⟩
  | false =>
    cases hv : s.liveVariant with
    | ok v => rw [execFinal_of_live hf hv] at h; cases h; exact .inr ⟨v, rfl, rfl, rfl⟩
    | error f => simp [execFinal, Regs.dead, hf, hv] at h

/-- No command faults but a live engine outside R21 or R26 (log entry 8), and none is refused. -/
theorem exec_stops {i : Instr} {s : State} (h : ∀ t, exec i s ≠ .next t) :
    ∃ f, exec i s = .fault f ∧ s.fin = false ∧ s.liveVariant = .error f := by
  cases i with
  | init size =>
    exfalso
    cases hv : variantOf size with
    | none => exact h _ (execInit_of_none hv s)
    | some v => exact h _ (variantOf_eq_some.mp hv ▸ execInit_of_size v s)
  | update len =>
    rcases Nat.lt_or_ge s.din.length len.toNat with hl | hl
    · exact absurd (execUpdate_of_short hl) (h _)
    · cases hf : s.fin with
      | true => exact absurd (execUpdate_of_dead hf hl) (h _)
      | false =>
        cases hv : s.liveVariant with
        | ok v => exact absurd (execUpdate_of_live hf hv hl) (h _)
        | error f => exact ⟨f, by simp [exec, execUpdate, dinPop_of_le hl, Regs.dead, hf, hv], rfl, rfl⟩
  | final =>
    cases hf : s.fin with
    | true => exact absurd (execFinal_of_dead hf) (h _)
    | false =>
      cases hv : s.liveVariant with
      | ok v => exact absurd (execFinal_of_live hf hv) (h _)
      | error f => exact ⟨f, by simp [exec, execFinal, Regs.dead, hf, hv], rfl, rfl⟩

/-! ### The step -/

/-- The five things a step can be: a reset, a wait for the host to take output, a command in progress, no command, a command word. -/
theorem step_cases (s : State) :
    (s.rst = true ∧ step s = .next s.hardReset) ∨
    (s.rst = false ∧ s.drain.offer ≠ [] ∧ step s = .next s.drain) ∨
    (∃ len, s.rst = false ∧ s.drain.offer = [] ∧ s.waiting = some len ∧ step s = execUpdate len s.drain) ∨
    (s.rst = false ∧ s.drain.offer = [] ∧ s.waiting = none ∧ s.cmd = [] ∧ step s = .next s.drain) ∨
    (∃ cw rest, s.rst = false ∧ s.drain.offer = [] ∧ s.waiting = none ∧ s.cmd = cw :: rest ∧
      step s = execWord cw (s.drain.withCmd rest)) := by
  unfold step commandLoop
  cases hr : s.rst with
  | true => exact .inl ⟨rfl, rfl⟩
  | false =>
    refine .inr ?_
    cases ho : s.drain.offer with
    | cons e l => exact .inl ⟨rfl, List.cons_ne_nil _ _, by simp⟩
    | nil =>
      refine .inr ?_
      cases hw : s.waiting with
      | some len => exact .inl ⟨len, rfl, rfl, rfl, by simp [resumeOrRun, hw, exec]⟩
      | none =>
        refine .inr ?_
        cases hc : s.cmd with
        | nil => exact .inl ⟨rfl, rfl, rfl, rfl, by simp [resumeOrRun, hw, runCommand, State.cmdPop, hc]⟩
        | cons cw rest =>
          exact .inr ⟨cw, rest, rfl, rfl, rfl, rfl, by simp [resumeOrRun, hw, runCommand, State.cmdPop, hc]⟩

/-- Executing a word: the command it decodes to, or `InvalidCommand`. -/
theorem execWord_cases (cw : BitVec 32) (s : State) :
    (∃ e, decode cw = .error e ∧ execWord cw s = .next (raiseError .invalidCommand s)) ∨
    (∃ i, decode cw = .ok i ∧ execWord cw s = exec i s) := by
  unfold execWord
  cases h : decode cw with
  | error e => exact .inl ⟨e, rfl, rfl⟩
  | ok i => exact .inr ⟨i, rfl, rfl⟩

/-! ### Frames -/

/-- What every command leaves alone, and that it only adds output. -/
theorem exec_frame {i : Instr} {s t : State} (h : exec i s = .next t) :
    s.cmd = t.cmd ∧ s.rspReady = t.rspReady ∧ s.doutReady = t.doutReady ∧ s.rst = t.rst ∧ s.taken = t.taken ∧
    s.resets = t.resets ∧ ∃ l, t.offer = s.offer ++ l := by
  cases i with
  | init size =>
    rcases execInit_cases h with ⟨-, rfl⟩ | ⟨v, -, rfl⟩ <;> exact ⟨rfl, rfl, rfl, rfl, rfl, rfl, _, rfl⟩
  | update len =>
    rcases execUpdate_cases h with ⟨-, rfl⟩ | ⟨-, -, rfl⟩ | ⟨v, -, -, -, rfl⟩
    · exact ⟨rfl, rfl, rfl, rfl, rfl, rfl, [], by simp⟩
    · exact ⟨rfl, rfl, rfl, rfl, rfl, rfl, _, rfl⟩
    · exact ⟨rfl, rfl, rfl, rfl, rfl, rfl, _, rfl⟩
  | final =>
    rcases execFinal_cases h with ⟨-, rfl⟩ | ⟨v, -, -, rfl⟩
    · exact ⟨rfl, rfl, rfl, rfl, rfl, rfl, _, rfl⟩
    · exact ⟨rfl, rfl, rfl, rfl, rfl, rfl, _, List.append_assoc ..⟩

/-- The same for any command word. -/
theorem execWord_frame {cw : BitVec 32} {s t : State} (h : execWord cw s = .next t) :
    s.cmd = t.cmd ∧ s.rspReady = t.rspReady ∧ s.doutReady = t.doutReady ∧ s.rst = t.rst ∧ s.taken = t.taken ∧
    s.resets = t.resets ∧ ∃ l, t.offer = s.offer ++ l := by
  rcases execWord_cases cw s with ⟨e, -, h'⟩ | ⟨i, -, h'⟩
  · rw [h'] at h; cases h; exact ⟨rfl, rfl, rfl, rfl, rfl, rfl, _, rfl⟩
  · exact exec_frame (h' ▸ h)

/-! ### Runs -/

/-- The first step of the host's run, for any machine. -/
theorem core_run_of_next {M : Host.Core} {n : Nat} {s t : M.State} (h : M.step s = .next t) : M.run (n + 1) s = M.run n t := by
  simp [Host.Core.run, h]

theorem core_run_of_fault {M : Host.Core} {n : Nat} {s : M.State} {f : M.Fault} (h : M.step s = .fault f) :
    M.run (n + 1) s = .fault f := by
  simp [Host.Core.run, h]

theorem core_run_of_refused {M : Host.Core} {n : Nat} {s : M.State} {r : M.Refusal} (h : M.step s = .refused r) :
    M.run (n + 1) s = .refused r := by
  simp [Host.Core.run, h]

/-- Running this machine step by step is what the host's `Host.Core.run` does. -/
theorem runSteps_eq_run (n : Nat) (s : State) : runSteps n s = Host.Core.run Sys2Proof.core n s := by
  induction n generalizing s with
  | zero => rfl
  | succ n ih =>
    cases h : step s with
    | next t =>
      have e : runSteps (n + 1) s = runSteps n t := by simp [runSteps, h]
      rw [e, ih t]
      exact Eq.symm <| core_run_of_next (M := Sys2Proof.core) h
    | fault f =>
      have e : runSteps (n + 1) s = .fault f := by simp [runSteps, h]
      rw [e]
      exact Eq.symm <| core_run_of_fault (M := Sys2Proof.core) h
    | refused r =>
      have e : runSteps (n + 1) s = .refused r := by simp [runSteps, h]
      rw [e]
      exact Eq.symm <| core_run_of_refused (M := Sys2Proof.core) h

theorem runSteps_succ_of_next {n : Nat} {s t : State} (h : step s = .next t) : runSteps (n + 1) s = runSteps n t := by
  simp [runSteps, h]

/-- A run in two parts. -/
theorem runSteps_add {m n : Nat} {s t : State} (h : runSteps m s = .next t) : runSteps (m + n) s = runSteps n t := by
  induction m generalizing s with
  | zero => cases h; simp
  | succ m ih =>
    have e : m + 1 + n = (m + n) + 1 := by omega
    cases hs : step s with
    | next u =>
      rw [runSteps_succ_of_next hs] at h
      rw [e, runSteps_succ_of_next hs]
      exact ih h
    | fault f => simp [runSteps, hs] at h
    | refused r => simp [runSteps, hs] at h

end Sys2Proof.Machine
end

