-- ==== Sys2Proof/Tests/Slice0.lean ====
section
/-! SUPPORT. Tests of the model on fixed values, and for every obligation with hypotheses a state and operands that meet them. Expected
values come from spec/: the worked examples of the rules and the vectors of spec/95_test_vectors.md, named at each test. -/

namespace Sys2Proof.Tests

open Sys2Proof.Machine

/-! ### Helpers -/

/-- `msg(n)` of spec/95_test_vectors.md: byte `i` is `i mod 256`. -/
def msg (n : Nat) : List Byte := (List.range n).map (BitVec.ofNat 8)

/-- A dead engine after reset, with words and bytes offered by the host. -/
def deadWith (ws : List (BitVec 32)) (b : List Byte) : State := { State.reset with cmd := ws, din := b }

/-- A live engine of variant `v` that has absorbed `M` (less than a block, so that nothing is compressed here). -/
def liveWith (v : Variant) (M : List Byte) (ws : List (BitVec 32)) (b : List Byte) : State :=
  (deadWith ws b).withRegs (absorbAll v.params M (startHash v State.reset.toRegs))

/-- The machine answers a next state that passes the check. -/
def answers (o : Host.Outcome State Fault Refusal) (p : State → Bool) : Bool :=
  match o with
  | .next t => p t
  | .fault _ => false
  | .refused _ => false

/-! ### Well-formedness (R224, R51) -/

theorem test_wf_accepts_framed_update : (Command.mk (.update 3) [0x61, 0x62, 0x63]).wf = true := by decide
theorem test_wf_refuses_short_payload : (Command.mk (.update 3) [0x61, 0x62]).wf = false := by decide
theorem test_wf_refuses_payload_for_init : (Command.mk (.init 256) [0x00]).wf = false := by decide
theorem test_wf_refuses_payload_for_final : (Command.mk .final [0x00]).wf = false := by decide
theorem test_wfAll_refuses_one_ill_framed : Command.wfAll [⟨.init 256, []⟩, ⟨.update 1, []⟩] = false := by decide

/-! ### Decoding, from the formats of R82, R83, R84 and the table of spec/95 section 7 -/

/-- R82: opcode 0001, eighteen zero bits, ten bits of `size`. -/
theorem test_decode_init_bits : decode 0b0001_000000000000000000_0111100000#32 = .ok (.init 480) := by decide

/-- R83: opcode 0010, twenty-eight bits of `len`. -/
theorem test_decode_update_bits : decode 0b0010_1000000000000000000000000001#32 = .ok (.update 0x8000001) := by decide

/-- R84: opcode 0011, twenty-eight zero bits. -/
theorem test_decode_final_bits : decode 0b0011_0000000000000000000000000000#32 = .ok .final := by decide

/-- R85: the lowest and the highest reserved bit of `INIT` and of `FINAL`, and the reserved opcodes next to the legal ones. -/
theorem test_decode_reserved :
    decode 0x10000400#32 = .error .reservedInit ∧ decode 0x18000100#32 = .error .reservedInit ∧
    decode 0x30000001#32 = .error .reservedFinal ∧ decode 0x38000000#32 = .error .reservedFinal ∧
    decode 0x0FFFFFFF#32 = .error .reservedOpcode ∧ decode 0x40000000#32 = .error .reservedOpcode := by decide

/-- R90: `INIT 256`, `UPDATE 3` and `FINAL` assemble to these words. -/
theorem test_encode : encode (.init 256) = 0x10000100#32 ∧ encode (.update 3) = 0x20000003#32 ∧ encode .final = 0x30000000#32 := by
  decide

theorem test_decodeTableWord : decodeTableWord 32 0x100000E0 = some (.init 224) ∧ decodeTableWord 32 0x30000001 = none := by decide

/-! ### Word operations and the mixing function (spec/95 section 2, R164) -/

theorem test_rotr : rotr 0x12345678#32 12 = 0x67812345#32 ∧ rotr 0x0123456789ABCDEF#64 25 = 0xD5E6F78091A2B3C4#64 := by decide

theorem test_mix_32_all_ones :
    mix rot32 ⟨0xFFFFFFFF#32, 0xFFFFFFFF, 0xFFFFFFFF, 0xFFFFFFFF⟩ 0xFFFFFFFF 0xFFFFFFFF =
      ⟨0x000FFFDC, 0x3DB81BE4, 0xDC020DFE, 0xDC000DFF⟩ := by decide

theorem test_mix_64_d :
    mix rot64 ⟨0#64, 0, 0, 1⟩ 0 0 = ⟨0x80, 0x1000100000200020, 0x0080000100010000, 0x0080000000010000⟩ := by decide

/-- The example of R164. -/
theorem test_mix_first_g :
    mix rot32 ⟨0x6A09E667#32, 0x510E527F, 0x243F6A88, 0xA409382A⟩ 0x852308D3 0x243F6A88 =
      ⟨0x30D77A12, 0x12E480BD, 0xBE1C9358, 0x2049449E⟩ := by decide

/-- The examples of R161. -/
theorem test_messageWord : messageWord 32 [0x00, 0x80, 0, 0] 0 = 0x00800000#32 ∧
    messageWord 64 [0x00, 0x80, 0, 0, 0, 0, 0, 0] 0 = 0x0080000000000000#64 := by decide

/-! ### Digests (spec/95 sections 5 and 6): one for each variant and each branch of the padding -/

/-- The empty message: counter 0, no `TB`. -/
theorem test_hash_224_empty :
    beNat (hashOf .b224 []) = 0x7dc5313b1c04512a174bd6503b89607aecbee0903d40a8a569c94eed := by decide +kernel

/-- 56 bytes: the smallest overflow, two compressions, `TB`. -/
theorem test_hash_256_overflow :
    beNat (hashOf .b256 (msg 56)) = 0x26ca422697c9fabc642129b1a5669be07fb0a3c31f14f1c7859e048ad5958e44 := by decide +kernel

/-- 111 bytes: the marker is the last byte before the length. -/
theorem test_hash_384_just_fits :
    beNat (hashOf .b384 (msg 111)) =
      0x8553c31b90da813048d56d04675f6399586b3c9e540184bbef029c8820efc6d68850c8719dffeb68fe8952ce39b55db3 := by
  decide +kernel

/-- 129 bytes: a full block and a tail. -/
theorem test_hash_512_two_blocks :
    beNat (hashOf .b512 (msg 129)) =
      0x7d2374719582a454aa5a23f4bb416c378305bea485ed2dca6a0134ac17ccf35928c5f0a7e0b2e39425ccc5e01f393e82df381998d1c3c7fecba2227aa56326ff := by
  decide +kernel

/-! ### The commands, one step each (spec/95 section 8) -/

/-- R101, example: `INIT 256` from reset. -/
theorem test_init_256 : answers (step (deadWith [0x10000100] [])) (fun t =>
    t.fin == false && t.var == 256 && t.ctr == 0 && t.buflen == 0 && t.H[1] == 0xBB67AE85#64 &&
    t.offer == [.rsp 0x0000]) = true := by decide

/-- R101, example, on a live engine (P3 step 16): `INIT 999` disturbs nothing. -/
theorem test_init_999 : answers (step (liveWith .b224 [0x00] [0x100003E7] [])) (fun t =>
    decide (t.toRegs = (liveWith .b224 [0x00] [] []).toRegs) && t.offer == [.rsp 0x0002]) = true := by decide +kernel

/-- P4 step 3: the byte that fills the block. -/
theorem test_update_fills_block : answers (step (liveWith .b256 (msg 63) [0x20000001] [0x3F])) (fun t =>
    t.ctr == 64 && t.buflen == 0 && t.H[0] == 0x73D9D28D#64 && t.H[7] == 0x2200D8B6#64 && t.din == [] &&
    t.offer == [.rsp 0x0000]) = true := by decide +kernel

/-- P3 step 2: a dead engine takes and discards the payload; the third byte waits (R224). -/
theorem test_update_dead : answers (step (deadWith [0x20000002] [0xAA, 0xBB, 0xCC])) (fun t =>
    decide (t.toRegs = State.reset.toRegs) && t.din == [0xCC] && t.offer == [.rsp 0x0001]) = true := by decide +kernel

/-- P1 step 3: the digest of "abc". -/
theorem test_final_abc : answers (step (liveWith .b256 [0x61, 0x62, 0x63] [0x30000000] [])) (fun t =>
    t.fin && t.ctr == 0 && t.buflen == 3 && t.H[0] == 0x1833A9FA#64 && responsesOf t.offer == [0x2000] &&
    beNat (digestBytesOf t.offer) == 0x1833a9fa7cf4086bd5fda73da32e5a1d75b4c3f89d5c436369f9d78bb2da5c28) = true := by
  decide +kernel

/-- P3 step 1: `FINAL` on a dead engine. -/
theorem test_final_dead : answers (step (deadWith [0x30000000] [])) (fun t =>
    decide (t.toRegs = State.reset.toRegs) && t.offer == [.rsp 0x0001]) = true := by decide +kernel

/-- P3 step 5: a reserved word. -/
theorem test_reserved_word : answers (step (deadWith [0x00000000] [0x01])) (fun t =>
    decide (t.toRegs = State.reset.toRegs) && t.din == [0x01] && t.offer == [.rsp 0x0003]) = true := by decide +kernel

/-- R225: the response stays on offer while the host is not ready, and the next command is not taken. -/
theorem test_response_held : answers (step { deadWith [0x10000100] [] with offer := [.rsp 0x0003], rspReady := false })
    (fun t => t.offer == [.rsp 0x0003] && t.cmd == [0x10000100]) = true := by decide

/-- R224: the payload that comes later completes the command. -/
theorem test_update_resumes : answers (step { liveWith .b256 [] [] [0x61] with waiting := some 1 }) (fun t =>
    t.buflen == 1 && t.waiting == none && t.offer == [.rsp 0x0000]) = true := by decide

/-- R220: a reset abandons the command in progress without a response. -/
theorem test_reset_abandons : ∃ t, step { liveWith .b256 [] [] [] with waiting := some 1, rst := true } = .next t ∧
    t.fin = true ∧ t.waiting = none ∧ t.rst = false ∧ t.output = [] := ⟨_, rfl, rfl, rfl, rfl, by simp [State.output, liveWith, deadWith]⟩

/-- R51, R224: a reset of a waiting `UPDATE 1` with three bytes offered leaves the last two for the next `UPDATE`. -/
theorem test_reset_keeps_extra_bytes :
    let s : State := { liveWith .b256 [] [] [0x61, 0x62, 0x63] with waiting := some 1, rst := true }
    ∃ t, step s = .next t ∧ 2 ≤ t.din.length := by
  intro s
  refine ⟨s.hardReset, rfl, ?_⟩
  have h : s.payloadLost ≤ 1 := payloadLost_le (len := 1#28) rfl
  have hl : s.din.length = 3 := rfl
  rw [State.hardReset_din, List.length_drop]
  omega

theorem test_withFetchWord : answers (step (State.reset.withFetchWord 32 0x100000E0)) (fun t => t.var == 224 && !t.fin) = true := by
  decide

/-- R90: `UPDATE 3, "abc"`; a length that is not the number of bytes is refused. -/
theorem test_assemble_update : assemble 0 (.update 3 [0x61, 0x62, 0x63]) = some [⟨0x20000003, [0x61, 0x62, 0x63]⟩] ∧
    assemble 0 (.update 2 [0x61, 0x62, 0x63]) = none := by decide

/-- R91: `HASH 256, "abc"`. -/
theorem test_assemble_hash : assemble 0 (.hash 256 [0x61, 0x62, 0x63]) =
    some [⟨0x10000100, []⟩, ⟨0x20000003, [0x61, 0x62, 0x63]⟩, ⟨0x30000000, []⟩] := by decide

/-! ### Witnesses: for each obligation with hypotheses, values that meet all of them together -/

/-- A live BLAKE-256 engine that holds one byte. -/
abbrev live1 : State := liveWith .b256 [0x61] [] [0x62, 0x63]

theorem live1_liveAs : live1.toRegs.LiveAs .b256 := ⟨rfl, rfl, by decide, by decide⟩

/-- A live BLAKE-512 engine whose buffer lacks one byte. -/
abbrev live127 : State := { liveWith .b512 [] [] [0x62] with buflen := 127 }

theorem live127_liveAs : live127.toRegs.LiveAs .b512 := ⟨rfl, rfl, by decide, by decide⟩

theorem test_witness_EncodeOfDecode : decode 0x2FFFFFFF#32 = .ok (.update 0xFFFFFFF) := by decide

theorem test_witness_StepExecutesDecodedCommand :
    let s := deadWith [0x10000100] []
    s.rst = false ∧ s.waiting = none ∧ s.drain.offer = [] ∧ s.cmd = 0x10000100 :: [] ∧
    decode 0x10000100 = .ok (.init 256) := by decide

theorem test_witness_StepResumesWaitingUpdate :
    let s : State := { live1 with waiting := some 2 }
    s.rst = false ∧ s.waiting = some 2 ∧ s.drain.offer = [] := by decide

/-- One word for each of the four kinds of reserved encoding. -/
theorem test_witness_ReservedWordRaisesInvalidCommand :
    let s := deadWith [0xFFFFFFFF] []
    s.rst = false ∧ s.waiting = none ∧ s.drain.offer = [] ∧ s.cmd = 0xFFFFFFFF :: [] ∧ Reserved 0xFFFFFFFF ∧
    Reserved 0x0FFFFFFF ∧ Reserved 0x10000400 ∧ Reserved 0x30000001 := by
  refine ⟨rfl, rfl, rfl, rfl, ?_, ?_, ?_, ?_⟩ <;> unfold Reserved <;> decide

theorem test_witness_IdleEngineHoldsItsRegisters :
    live1.rst = false ∧ live1.waiting = none ∧ live1.cmd = [] := by decide

theorem test_witness_UntakenOutputHoldsTheEngine :
    let s : State := { live1 with offer := [.dout 0x61], doutReady := false }
    s.rst = false ∧ s.offer = .dout 0x61 :: [] ∧ s.accepts (.dout 0x61) = false := by decide

theorem test_witness_CommandTakenOnlyWhenReady :
    ∃ t, step (deadWith [0x10000100] []) = .next t ∧ t.cmd ≠ (deadWith [0x10000100] []).cmd := ⟨_, rfl, by decide⟩

theorem test_witness_PayloadTakenOnlyByUpdate :
    let s := deadWith [0x20000001] [0xAA]
    s.rst = false ∧ ∃ t, step s = .next t ∧ t.din ≠ s.din := ⟨rfl, _, rfl, by decide⟩

theorem test_witness_OutputOnlyGrows :
    let s := deadWith [0x30000000] []
    s.rst = false ∧ ∃ t, step s = .next t := ⟨rfl, _, rfl⟩

theorem test_witness_OneResponsePerCommand :
    ∃ t, exec (.update 2) live1 = .next t ∧ t.waiting = none := ⟨_, rfl, by decide +kernel⟩

/-- Both clauses: an `UPDATE` that waits, and none. -/
theorem test_witness_ResetStepKillsTheEngine :
    let s : State := { live1.hostReset with waiting := some 1 }
    (s.rst = true ∧ s.waiting = some 1) ∧ live1.hostReset.rst = true ∧ live1.hostReset.waiting = none := by decide

theorem test_witness_AssertedResetSilencesThePins : live1.hostReset.rst = true := by decide

theorem test_witness_UnspecifiedRegistersAreNeverSeen :
    let r : Regs := { State.reset.toRegs with buflen := 255, var := 7 }
    r.fin = true ∧ State.reset.toRegs.fin = true ∧ ∃ t, runSteps 1 ((deadWith [0x10000100] []).withRegs r) = .next t :=
  ⟨rfl, rfl, _, rfl⟩

theorem test_witness_StepKeepsInvariant :
    let s := liveWith .b256 [0x61] [0x20000002] [0x62, 0x63]
    EngineInv s ∧ s.fin = false ∧ ∃ t, step s = .next t :=
  ⟨fun _ => ⟨.b256, live1_liveAs⟩, rfl, _, rfl⟩

theorem test_witness_InvariantStatesNeverStop : EngineInv live127 ∧ live127.fin = false :=
  ⟨fun _ => ⟨.b512, live127_liveAs⟩, rfl⟩

theorem test_witness_StepKeepsResponsesLegal :
    let s : State := { State.reset with taken := [.rsp 0x0001, .dout 0xAA], cmd := [0x10000100] }
    ResponsesLegal s ∧ ∃ t, step s = .next t := by
  refine ⟨fun w hw => ?_, ?_⟩
  · have h : w = 0x0001#16 := by simpa [State.output, responsesOf, State.reset] using hw
    rw [h]; decide
  · rcases step_cases { State.reset with taken := [.rsp 0x0001, .dout 0xAA], cmd := [0x10000100] } with
      ⟨_, h⟩ | ⟨_, _, h⟩ | ⟨_, _, _, h, _⟩ | ⟨_, _, _, _, h⟩ | ⟨cw, rest, _, _, _, hc, h⟩
    · exact ⟨_, h⟩
    · exact ⟨_, h⟩
    · cases h
    · exact ⟨_, h⟩
    · cases hc; exact ⟨_, h⟩

/-- Two live engines that differ in the bytes of `BUF` that are not valid. -/
theorem test_witness_IndistinguishableStatesStepAlike :
    let s := liveWith .b256 [] [] []
    let t : State := { s with BUF := s.BUF.set 5 0xFF }
    Indistinguishable s t ∧ s ≠ t ∧ s.fin = false :=
  ⟨⟨⟨rfl, fun _ => ⟨rfl, rfl, rfl, fun _ _ => ⟨rfl, rfl⟩⟩⟩, ⟨rfl, rfl, rfl, rfl, rfl, rfl⟩, rfl, rfl, rfl⟩,
    by decide +kernel, rfl⟩

theorem test_witness_EngineHoldsTheMessageAbsorbed :
    Absorbed .b256 [0x61] live1.toRegs ∧ (2#28).toNat ≤ live1.din.length :=
  ⟨⟨live1_liveAs, by decide, by decide, by decide +kernel, by decide +kernel⟩, by decide⟩

theorem test_witness_OnlyLegalInitRevives :
    let s := deadWith [0x10000200] []
    s.fin = true ∧ ∃ t, step s = .next t ∧ t.fin = false := ⟨rfl, _, rfl, rfl⟩

theorem test_witness_OnlyFinalOrResetKills :
    let s := liveWith .b256 [0x61] [0x30000000] []
    s.fin = false ∧ ∃ t, step s = .next t ∧ t.fin = true := ⟨rfl, _, rfl, rfl⟩

theorem test_witness_VarWrittenOnlyByInit :
    let s := liveWith .b256 [0x61] [0x10000180] []
    ∃ t, step s = .next t ∧ t.var ≠ s.var := ⟨_, rfl, by decide⟩

/-- Sizes at both ends of the field and next to the legal ones. -/
theorem test_witness_InitStartsANewHashOrFails : ∀ size ∈ [0#10, 223, 225, 255, 257, 383, 385, 511, 513, 1023],
    size.toNat ≠ 224 ∧ size.toNat ≠ 256 ∧ size.toNat ≠ 384 ∧ size.toNat ≠ 512 := by decide

theorem test_witness_InitForgetsTheOldHash :
    let s := live1
    let t : State := { live127 with din := s.din }
    SameChannels s t ∧ s.var ≠ t.var ∧ (∃ s', exec (.init Variant.b224.size) s = .next s') ∧
    ∃ t', exec (.init Variant.b224.size) t = .next t' :=
  ⟨⟨⟨rfl, rfl, rfl, rfl, rfl, rfl⟩, rfl, rfl, rfl⟩, by decide, ⟨_, rfl⟩, _, rfl⟩

/-- All the payload there is. -/
theorem test_witness_UpdateRefinesTheDocumentsUpdate : live1.toRegs.LiveAs .b256 ∧ (2#28).toNat ≤ live1.din.length :=
  ⟨live1_liveAs, by decide⟩

/-- Both clauses: an offset no payload byte goes to, and the offset of the last payload byte, which is the last of the buffer. -/
theorem test_witness_UpdateStoresItsPayloadInTheBuffer :
    live127.toRegs.LiveAs .b512 ∧ (1#28).toNat ≤ live127.din.length ∧
    (∀ k < (1#28).toNat, (live127.buflen.toNat + k) % blockBytes Variant.b512.W ≠ (126 : Fin 128).val) ∧
    (0 < (1#28).toNat ∧ (1#28).toNat ≤ 0 + blockBytes Variant.b512.W ∧
      (live127.buflen.toNat + 0) % blockBytes Variant.b512.W = (127 : Fin 128).val) :=
  ⟨live127_liveAs, by decide, by decide +kernel, by decide +kernel⟩

/-- Both clauses, at the two lengths where they meet. -/
theorem test_witness_AbsorbStoresAByteAndCompressesAFullBuffer :
    let r : Regs := { live1.toRegs with buflen := 62 }
    let q : Regs := { live1.toRegs with buflen := 63 }
    (r.LiveAs .b256 ∧ r.buflen.toNat + 1 < blockBytes Variant.b256.W) ∧
    (q.LiveAs .b256 ∧ q.buflen.toNat + 1 = blockBytes Variant.b256.W) :=
  ⟨⟨⟨rfl, rfl, by decide, by decide⟩, by decide⟩, ⟨rfl, rfl, by decide, by decide⟩, by decide⟩

theorem test_witness_UpdateZeroIsANoOp : live127.toRegs.LiveAs .b512 := live127_liveAs

/-- No payload, and all the payload there is; and an `INIT` for the third clause. -/
theorem test_witness_DeadEngineAnswersInvalidState :
    let s := deadWith [] [0xAA]
    s.fin = true ∧ (0#28).toNat ≤ s.din.length ∧ (1#28).toNat ≤ s.din.length ∧ ∃ t, exec (.init 300) s = .next t :=
  ⟨rfl, by decide, by decide, _, rfl⟩

/-- One byte missing. -/
theorem test_witness_UpdateWaitsForItsPayload :
    live1.rst = false ∧ live1.offer = [] ∧ live1.din.length < (3#28).toNat := by decide

/-- The empty first piece too. -/
theorem test_witness_ChunkingIndependence :
    live1.toRegs.LiveAs .b256 ∧ (2#28).toNat = (1#28).toNat + (1#28).toNat ∧ (2#28).toNat = (0#28).toNat + (2#28).toNat ∧
    (2#28).toNat ≤ live1.din.length :=
  ⟨live1_liveAs, by decide, by decide, by decide⟩

theorem test_witness_FinalReturnsTheDigest : live1.toRegs.LiveAs .b256 := live1_liveAs

theorem test_witness_DigestLengthIsFixedByTheVariant : live127.toRegs.LiveAs .b512 := live127_liveAs

theorem test_witness_DigestIsSentOnceByFinalOnly :
    live1.toRegs.LiveAs .b256 ∧ decode 0x20000002 ≠ .ok .final ∧ ∃ t, execWord 0x20000002 live1 = .next t :=
  ⟨live1_liveAs, by decide, _, rfl⟩

theorem test_witness_ErrorsWriteNoRegister :
    ∃ t, execWord 0x20000001 (deadWith [] [0xAA]) = .next t ∧ t.offer = (deadWith [] [0xAA]).offer ++ .rsp 0x0001 :: [] ∧
      (0x0001#16).toNat % 16 ≠ 0 := ⟨_, rfl, by decide, by decide⟩

/-- The four clauses: a reserved `INIT` whose low bits are a legal size, the sizes next to a legal one, the smallest and the largest
reserved `FINAL`, and `UPDATE` of no byte and of all there are. -/
theorem test_witness_ErrorPriority :
    let s := deadWith [] [0xAA]
    ((0x10000500#32).toNat / 2 ^ 28 = 1 ∧ (0x10000500#32).toNat / 2 ^ 10 % 2 ^ 18 ≠ 0) ∧
    ((0x100000E1#32).toNat / 2 ^ 10 = 2 ^ 18 ∧ (0x100000E1#32).toNat % 2 ^ 10 ∉ [224, 256, 384, 512]) ∧
    ((0x100003FF#32).toNat / 2 ^ 10 = 2 ^ 18 ∧ (0x100003FF#32).toNat % 2 ^ 10 ∉ [224, 256, 384, 512]) ∧
    ((0x30000001#32).toNat / 2 ^ 28 = 3 ∧ (0x30000001#32).toNat % 2 ^ 28 ≠ 0) ∧
    ((0x3FFFFFFF#32).toNat / 2 ^ 28 = 3 ∧ (0x3FFFFFFF#32).toNat % 2 ^ 28 ≠ 0) ∧
    ((0x20000000#32).toNat / 2 ^ 28 = 2 ∧ s.fin = true ∧ (0x20000000#32).toNat % 2 ^ 28 ≤ s.din.length) ∧
    ((0x20000001#32).toNat / 2 ^ 28 = 2 ∧ s.fin = true ∧ (0x20000001#32).toNat % 2 ^ 28 ≤ s.din.length) := by decide

/-- Both clauses: a size next to a legal one, and a full buffer of either width. -/
theorem test_witness_LiveEngineOutsideTheInvariantStops :
    let s : State := { live1 with var := 225 }
    let t : State := { live1 with buflen := 64 }
    let u : State := { live127 with buflen := 128 }
    (s.fin = false ∧ (2#28).toNat ≤ s.din.length ∧ s.var.toNat ∉ [224, 256, 384, 512]) ∧
    (t.fin = false ∧ t.var = Variant.b256.size ∧ blockBytes Variant.b256.W ≤ t.buflen.toNat) ∧
    (u.fin = false ∧ u.var = Variant.b512.size ∧ blockBytes Variant.b512.W ≤ u.buflen.toNat) := by decide +kernel

/-- The shortest and the longest tail that leaves room for a zero byte. -/
theorem test_witness_FinalizeOfAShortTail :
    (0 < (msg 1).length ∧ (msg 1).length + 1 < padLimit Variant.b256.W) ∧
    (0 < (msg 54).length ∧ (msg 54).length + 1 < padLimit Variant.b256.W) ∧
    (0 < (msg 110).length ∧ (msg 110).length + 1 < padLimit Variant.b512.W) := by decide +kernel

theorem test_witness_FinalizeOfATailThatJustFits :
    (msg 55).length + 1 = padLimit Variant.b224.W ∧ (msg 111).length + 1 = padLimit Variant.b384.W := by decide +kernel

/-- The smallest and the largest overflow (R141 (d), (e)). -/
theorem test_witness_FinalizeInTheOverflowBranch :
    (padLimit Variant.b256.W ≤ (msg 56).length ∧ (msg 56).length < blockBytes Variant.b256.W) ∧
    (padLimit Variant.b256.W ≤ (msg 63).length ∧ (msg 63).length < blockBytes Variant.b256.W) ∧
    (padLimit Variant.b512.W ≤ (msg 112).length ∧ (msg 127).length < blockBytes Variant.b512.W) := by decide +kernel

theorem test_witness_LengthFieldIsTheLastTwoWords : (msg 56).length = padLimit Variant.b256.W := by decide +kernel

/-- The last byte of the shortest and of the longest digest. -/
theorem test_witness_DigestIsTheChainingValueBigEndian :
    (27 < Variant.b224.size.toNat / 8 ∧ 27 / wordBytes Variant.b224.W < 8) ∧
    (63 < Variant.b512.size.toNat / 8 ∧ 63 / wordBytes Variant.b512.W < 8) := by decide

theorem test_witness_RotrMovesEachBit : (0 < 25 ∧ 25 < 64 ∧ 63 < 64) ∧ (0 < 16 ∧ 16 < 32 ∧ 0 < 32) := by decide

/-- The last diagonal, a position it leaves alone, two vectors that agree on its four positions only, and two messages and rounds that
give it the same two inputs. -/
theorem test_witness_GTouchesItsFourWordsOnly :
    let g : GPos := ⟨7, 3, 4, 9, 14⟩
    let x : Vec16 32 := Vector.replicate 16 0
    let m : Vec16 32 := Vector.replicate 16 0
    let m' := m.set 0 1
    g ∈ roundSchedule ∧ (15 : Fin 16) ∉ [g.a, g.b, g.c, g.d] ∧ (∀ k ∈ [g.a, g.b, g.c, g.d], x[k] = (x.set 15 1)[k]) ∧
    gInputX params256 m 0 g.i = gInputX params256 m' 10 g.i ∧ gInputY params256 m 0 g.i = gInputY params256 m' 10 g.i := by
  decide

theorem test_witness_ColumnsCommuteAndDiagonalsCommute :
    (⟨0, 0, 4, 8, 12⟩ : GPos) ∈ roundSchedule.take 4 ∧ (⟨3, 3, 7, 11, 15⟩ : GPos) ∈ roundSchedule.take 4 ∧
    (⟨4, 0, 5, 10, 15⟩ : GPos) ∈ roundSchedule.drop 4 ∧ (⟨7, 3, 4, 9, 14⟩ : GPos) ∈ roundSchedule.drop 4 := by decide

/-- Also with output of an earlier hash still on offer, and an empty piece. -/
theorem test_witness_SessionReturnsTheHashOfTheMessage :
    AtRest State.reset ∧ AtRest ({ State.reset with offer := [.rsp 0x0001] } : State) ∧
    (∀ p ∈ [msg 3, []], p.length ≤ maxPayload) := by
  refine ⟨?_, ?_, by decide⟩ <;> exact ⟨rfl, rfl, rfl, rfl, rfl, rfl⟩

theorem test_witness_RestartReinitialisesTheSameVariant : live127.var = Variant.b512.size := by decide +kernel

theorem test_witness_EnginesShareNothing :
    ∃ p, Platform.stepEngine 1 [State.reset, deadWith [0x10000100] [], State.reset] = .next p := ⟨_, rfl⟩

theorem test_witness_NarrowVariantsKeepTheUnusedStorage :
    EngineInv live1 ∧ (∃ t, exec (.update 2) live1 = .next t ∧ t.var = Variant.b256.size) ∧ Variant.b256.W = 32 :=
  ⟨fun _ => ⟨.b256, live1_liveAs⟩, ⟨_, rfl, by decide +kernel⟩, rfl⟩

end Sys2Proof.Tests
end

/-! ## Byte strings and numbers (R10): `beNat`, `beStore`, `beLoad` -/

section
namespace Sys2Proof.Machine

@[simp] theorem beNat_nil : beNat [] = 0 := rfl

/-- The last byte is the least significant one. -/
@[simp] theorem beNat_concat (b : List Byte) (x : Byte) : beNat (b ++ [x]) = beNat b * 256 + x.toNat := by simp [beNat]

theorem beNat_lt (b : List Byte) : beNat b < 2 ^ (8 * b.length) := by
  induction b using List.reverseRecOn with
  | nil => simp
  | append_singleton b x ih =>
    have hpow : 2 ^ (8 * (b ++ [x]).length) = 2 ^ (8 * b.length) * 256 := by simp [Nat.mul_add, Nat.pow_add]
    have hx : x.toNat < 256 := x.isLt
    rw [beNat_concat, hpow]
    omega

@[simp] theorem beStore_zero {m : Nat} (x : BitVec m) : beStore 0 x = [] := rfl

/-- Storing one byte more: the bytes of the word without its low byte, then that byte. -/
theorem beStore_succ (k : Nat) {m : Nat} (x : BitVec m) : beStore (k + 1) x = beStore k (x >>> 8) ++ [x.extractLsb' 0 8] := by
  have hbyte : ∀ i ∈ List.range k, x.extractLsb' (8 * (k - i)) 8 = (x >>> 8).extractLsb' (8 * (k - 1 - i)) 8 := by
    intro i hi
    have hoff : 8 * (k - i) = 8 + 8 * (k - 1 - i) := by
      have := List.mem_range.mp hi
      omega
    ext j hj
    simp [hoff, Nat.add_assoc]
  simpa [beStore, List.range_succ] using hbyte

/-- The stored bytes stand for the low `8 * k` bits of the word. -/
theorem beNat_beStore (k : Nat) {m : Nat} (x : BitVec m) : beNat (beStore k x) = x.toNat % 2 ^ (8 * k) := by
  induction k generalizing x with
  | zero => simp [Nat.mod_one]
  | succ k ih =>
    have hsplit : x.toNat % 2 ^ (8 * (k + 1)) = x.toNat % 256 + 256 * (x.toNat / 256 % 2 ^ (8 * k)) := by
      rw [show 2 ^ (8 * (k + 1)) = 256 * 2 ^ (8 * k) by rw [Nat.mul_succ, Nat.pow_add, Nat.mul_comm], Nat.mod_mul]
    have hshift : (x >>> 8).toNat = x.toNat / 256 := by simp [Nat.shiftRight_eq_div_pow]
    have hlow : (x.extractLsb' 0 8).toNat = x.toNat % 256 := by simp
    rw [beStore_succ, beNat_concat, ih, hshift, hlow, hsplit]
    omega

/-- A word wide enough for a byte string holds its number unchanged. -/
theorem toNat_beLoad {W : Nat} {b : List Byte} (h : 8 * b.length ≤ W) : (beLoad W b).toNat = beNat b :=
  Nat.mod_eq_of_lt (Nat.lt_of_lt_of_le (beNat_lt b) (Nat.pow_le_pow_right (by decide) h))

theorem beLoad_concat_shiftRight {W : Nat} {b : List Byte} {x : Byte} (h : 8 * (b ++ [x]).length ≤ W) :
    beLoad W (b ++ [x]) >>> 8 = beLoad W b := by
  have hb : 8 * b.length ≤ W := by
    rw [List.length_append] at h
    omega
  apply BitVec.eq_of_toNat_eq
  rw [BitVec.toNat_ushiftRight, toNat_beLoad h, toNat_beLoad hb, beNat_concat, Nat.shiftRight_eq_div_pow]
  have hx : x.toNat < 256 := x.isLt
  omega

theorem beLoad_concat_lowByte {W : Nat} {b : List Byte} {x : Byte} (h : 8 * (b ++ [x]).length ≤ W) :
    (beLoad W (b ++ [x])).extractLsb' 0 8 = x := by
  apply BitVec.eq_of_toNat_eq
  rw [BitVec.extractLsb'_toNat, toNat_beLoad h, beNat_concat, Nat.shiftRight_zero]
  have hx : x.toNat < 256 := x.isLt
  omega

/-- `be_load` undoes `be_store` (R10). -/
theorem beLoad_beStore (k : Nat) (x : BitVec (8 * k)) : beLoad (8 * k) (beStore k x) = x := by
  simp [beLoad, beNat_beStore]

/-- `be_store` undoes `be_load` on every word wide enough for the bytes, wider ones included (R10). -/
theorem beStore_beLoad {W : Nat} {b : List Byte} (h : 8 * b.length ≤ W) : beStore b.length (beLoad W b) = b := by
  induction b using List.reverseRecOn with
  | nil => rfl
  | append_singleton b x ih =>
    have hb : 8 * b.length ≤ W := by
      rw [List.length_append] at h
      omega
    rw [List.length_append, List.length_singleton, beStore_succ, beLoad_concat_shiftRight h, beLoad_concat_lowByte h, ih hb]

/-- Settles O48: each direction by peeling off the least significant byte, the last one of the string. -/
theorem beLoadAndBeStoreAreInverse : Obligations.BeLoadAndBeStoreAreInverse :=
  ⟨beLoad_beStore, fun _ => beStore_beLoad (Nat.le_refl _)⟩

end Sys2Proof.Machine
end

/-! ## The registers (10_state.md): what a command and a step do to them -/

section
namespace Sys2Proof.Machine

/-- What a command can do to the registers: nothing, start a hash, absorb a payload, or finalize and die. -/
theorem exec_regs_cases {i : Instr} {s t : State} (h : exec i s = .next t) :
    t.toRegs = s.toRegs ∨
    (∃ v : Variant, i = .init v.size ∧ t.toRegs = startHash v s.toRegs) ∨
    (∃ (v : Variant) (len : BitVec 28), i = .update len ∧ s.fin = false ∧ s.liveVariant = .ok v ∧
      t.toRegs = absorbAll v.params (s.din.take len.toNat) s.toRegs) ∨
    (∃ v : Variant, i = .final ∧ s.fin = false ∧ s.liveVariant = .ok v ∧
      t.toRegs = (finalize v.params s.toRegs).1.makeDead) := by
  cases i with
  | init size =>
    rcases execInit_cases h with ⟨-, rfl⟩ | ⟨v, rfl, rfl⟩
    · exact .inl rfl
    · exact .inr (.inl ⟨v, rfl, rfl⟩)
  | update len =>
    rcases execUpdate_cases h with ⟨-, rfl⟩ | ⟨-, -, rfl⟩ | ⟨v, -, hf, hv, rfl⟩
    · exact .inl rfl
    · exact .inl rfl
    · exact .inr (.inr (.inl ⟨v, len, rfl, hf, hv, rfl⟩))
  | final =>
    rcases execFinal_cases h with ⟨-, rfl⟩ | ⟨v, hf, hv, rfl⟩
    · exact .inl rfl
    · exact .inr (.inr (.inr ⟨v, rfl, hf, hv, rfl⟩))

/-- What a step can do to the registers: reset them, leave them, or what one command does, which is the `UPDATE` in progress or the
command word taken. -/
theorem step_regs_cases {s t : State} (h : step s = .next t) :
    (s.rst = true ∧ t = s.hardReset) ∨ t.toRegs = s.toRegs ∨
    (∃ (i : Instr) (u : State), u.toRegs = s.toRegs ∧ exec i u = .next t ∧
      ((∃ len, i = .update len) ∨ ∃ cw, s.cmd = cw :: t.cmd ∧ decode cw = .ok i)) := by
  rcases step_cases s with ⟨hr, hs⟩ | ⟨-, -, hs⟩ | ⟨len, -, -, -, hs⟩ | ⟨-, -, -, -, hs⟩ | ⟨cw, rest, -, -, -, hc, hs⟩
  · rw [hs] at h; cases h; exact .inl ⟨hr, rfl⟩
  · rw [hs] at h; cases h; exact .inr (.inl rfl)
  · exact .inr (.inr ⟨.update len, s.drain, rfl, hs.symm.trans h, .inl ⟨len, rfl⟩⟩)
  · rw [hs] at h; cases h; exact .inr (.inl rfl)
  · rcases execWord_cases cw (s.drain.withCmd rest) with ⟨e, -, hw⟩ | ⟨i, hd, hw⟩
    · rw [hs, hw] at h; cases h; exact .inr (.inl rfl)
    · rw [hs, hw] at h
      obtain ⟨hcmd, -⟩ := exec_frame h
      exact .inr (.inr ⟨i, s.drain.withCmd rest, rfl, h, .inr ⟨cw, by rw [hc, ← hcmd, State.withCmd_cmd], hd⟩⟩)

/-- Settles O26: of the commands only `INIT` writes `var`, and it comes from a command word. -/
theorem varWrittenOnlyByInit : Obligations.VarWrittenOnlyByInit := by
  intro s t hst hne
  rcases step_regs_cases hst with ⟨hr, -⟩ | hk | ⟨i, u, hu, hx, hi⟩
  · exact .inl hr
  · exact absurd (congrArg Regs.var hk) hne
  · rw [← hu] at hne
    rcases exec_regs_cases hx with hk | ⟨v, rfl, hs⟩ | ⟨v, len, -, -, -, ha⟩ | ⟨v, -, -, -, hfin⟩
    · exact absurd (congrArg Regs.var hk) hne
    · rcases hi with ⟨len, hi⟩ | ⟨cw, hc, hd⟩
      · cases hi
      · exact .inr ⟨by rw [hs, startHash_fin], v, cw, by rw [hs, startHash_var], hc, hd⟩
    · exact absurd (by rw [ha, absorbAll_var]) hne
    · exact absurd (by rw [hfin, Regs.makeDead_var, finalize_var]) hne

end Sys2Proof.Machine
end

/-! ## The invariant of R36 (I1 to I3) -/

section
namespace Sys2Proof.Machine

theorem startHash_liveAs (v : Variant) (r : Regs) : (startHash v r).LiveAs v := by
  refine ⟨rfl, rfl, ?_, ?_⟩
  · simpa using Variant_blockBytes_pos v
  · simp

/-- Advancing the counter by a block keeps it a multiple of the block size, also where it wraps (R36 I3). -/
theorem counter_add_block_mod (v : Variant) {c : BitVec (2 * v.W)} (h : c.toNat % blockBytes v.W = 0) :
    (c + BitVec.ofNat (2 * v.W) (blockBytes v.W)).toNat % blockBytes v.W = 0 := by
  rw [BitVec.toNat_add, BitVec.toNat_ofNat, Nat.add_mod_mod, Nat.mod_mod_of_dvd _ (Variant_blockBytes_dvd v),
    Nat.add_mod_right, h]

theorem absorb_liveAs {v : Variant} {r : Regs} (b : Byte) (h : r.LiveAs v) : (absorb v.params r b).LiveAs v := by
  obtain ⟨hfin, hvar, hlen, hctr⟩ := h
  refine ⟨by rw [absorb_fin, hfin], by rw [absorb_var, hvar], ?_, ?_⟩
  · rw [absorb_buflen b hlen]
    exact Nat.mod_lt _ (Variant_blockBytes_pos v)
  · rcases Nat.lt_or_eq_of_le hlen with hl | he
    · rwa [absorb_of_lt b hl, counter_storeByte]
    · rw [absorb_of_eq b he, counter_compressBuffer, counter_storeByte]
      exact counter_add_block_mod v hctr

theorem absorbAll_liveAs {v : Variant} (l : List Byte) {r : Regs} (h : r.LiveAs v) : (absorbAll v.params l r).LiveAs v := by
  induction l generalizing r with
  | nil => exact h
  | cons b l ih => exact ih (absorb_liveAs b h)

/-- The invariant speaks of the registers only. -/
theorem engineInv_congr {s u : State} (h : u.toRegs = s.toRegs) (hs : EngineInv s) : EngineInv u := by
  unfold EngineInv at *
  rwa [h]

/-- A live engine that meets the invariant is live as the variant its commands run with. -/
theorem liveAs_of_liveVariant {s : State} {v : Variant} (hs : EngineInv s) (hf : s.fin = false) (hv : s.liveVariant = .ok v) :
    s.toRegs.LiveAs v := by
  obtain ⟨w, hlive⟩ := hs hf
  have ⟨_, hw, _, _⟩ := hlive
  obtain ⟨hvar, -⟩ := liveVariant_eq_ok.mp hv
  rwa [Variant_size_injective (hvar.symm.trans hw)]

theorem exec_keeps_engineInv {i : Instr} {s t : State} (hs : EngineInv s) (h : exec i s = .next t) : EngineInv t := by
  intro hlive
  rcases exec_regs_cases h with hk | ⟨v, -, ht⟩ | ⟨v, len, -, hf, hv, ht⟩ | ⟨v, -, -, -, ht⟩
  · exact engineInv_congr hk hs hlive
  · exact ⟨v, ht ▸ startHash_liveAs v _⟩
  · exact ⟨v, ht ▸ absorbAll_liveAs _ (liveAs_of_liveVariant hs hf hv)⟩
  · rw [ht, Regs.makeDead_fin] at hlive
    cases hlive

/-- Settles O19: a reset leaves a dead engine, and every command keeps the invariant. -/
theorem stepKeepsInvariant : Obligations.StepKeepsInvariant := by
  intro s t hs h
  rcases step_regs_cases h with ⟨-, rfl⟩ | hk | ⟨i, u, hu, hx, -⟩
  · intro hlive
    cases hlive
  · exact engineInv_congr hk hs
  · exact exec_keeps_engineInv (engineInv_congr hu hs) hx

/-- Settles O18: the reset state is dead and has given no output. -/
theorem resetMeetsInvariants : Obligations.ResetMeetsInvariants :=
  ⟨fun hlive => Bool.noConfusion hlive, fun _ hw => absurd hw List.not_mem_nil⟩

/-- Settles O14: a fixed state, evaluated. -/
theorem resetStateIsDeadAndQuiet : Obligations.ResetStateIsDeadAndQuiet :=
  ⟨rfl, rfl, rfl, rfl, rfl, rfl, rfl⟩

end Sys2Proof.Machine
end

/-! ## The message a live engine has absorbed (R36 I4, R110) -/

section
namespace Sys2Proof.Machine

/-- A block that lies in a message is the same block of every longer message. -/
theorem blockAt_append {bs k : Nat} {M : List Byte} (N : List Byte) (h : bs * (k + 1) ≤ M.length) :
    blockAt bs k (M ++ N) = blockAt bs k M := by
  rw [Nat.mul_succ, Nat.mul_comm bs k] at h
  have hdrop : k * bs ≤ M.length := by omega
  have htake : bs ≤ (M.drop (k * bs)).length := by
    rw [List.length_drop]
    omega
  rw [blockAt, List.drop_append_of_le_length hdrop, List.take_append_of_le_length htake, blockAt]

/-- The chaining value after the first `k` blocks depends on these blocks only. -/
theorem chainAfter_append (v : Variant) {M : List Byte} (N : List Byte) {k : Nat} (h : blockBytes v.W * k ≤ M.length) :
    chainAfter v (M ++ N) k = chainAfter v M k := by
  induction k with
  | zero => rfl
  | succ k ih =>
    have hk : blockBytes v.W * k ≤ M.length := Nat.le_trans (Nat.mul_le_mul_left _ (Nat.le_succ k)) h
    rw [chainAfter, chainAfter, ih hk, blockAt_append N h]

/-- The counter operand of the block that brings the counter to `n` bytes (R103). -/
theorem bitCount_ofNat (v : Variant) (n : Nat) :
    bitCount v.params (BitVec.ofNat (2 * v.W) n) = BitVec.ofNat (2 * v.W) (8 * n) := by
  rw [bitCount, Variant_ctrUnit, BitVec.ofNat_mul]

/-- What I1 to I4 say of a message of `q` blocks and `d` bytes more. -/
theorem absorbed_iff {v : Variant} {M : List Byte} {r : Regs} {q d : Nat} (hM : M.length = blockBytes v.W * q + d)
    (hd : d < blockBytes v.W) : Absorbed v M r ↔
      r.LiveAs v ∧ r.counter v.W = BitVec.ofNat (2 * v.W) (blockBytes v.W * q) ∧ r.buflen.toNat = d ∧
      r.tail = M.drop (blockBytes v.W * q) ∧ r.chain v.W = chainAfter v M q := by
  obtain ⟨hq, hr⟩ := (Nat.div_mod_unique (Variant_blockBytes_pos v)).mpr ⟨(Nat.add_comm d _).trans hM.symm, hd⟩
  rw [Absorbed, hq, hr]

theorem startHash_absorbed (v : Variant) (r : Regs) : Absorbed v [] (startHash v r) :=
  (absorbed_iff (q := 0) (d := 0) rfl (Variant_blockBytes_pos v)).mpr
    ⟨startHash_liveAs v r, counter_startHash v r, rfl, tail_startHash v r, chain_startHash v r⟩

/-- `Absorb` extends the message by its byte: below a full buffer only the tail grows, else the tail with the byte is block `q` and
the next chaining value is its compression. -/
theorem absorb_absorbed {v : Variant} {M : List Byte} {r : Regs} (b : Byte) (h : Absorbed v M r) :
    Absorbed v (M ++ [b]) (absorb v.params r b) := by
  obtain ⟨q, d, hM, hd⟩ : ∃ q d, M.length = blockBytes v.W * q + d ∧ d < blockBytes v.W :=
    ⟨_, _, (Nat.div_add_mod _ _).symm, Nat.mod_lt _ (Variant_blockBytes_pos v)⟩
  obtain ⟨hlive, hctr, hlen, htail, hchain⟩ := (absorbed_iff hM hd).mp h
  have hq : blockBytes v.W * q ≤ M.length := by omega
  have hgrown : (M ++ [b]).drop (blockBytes v.W * q) = r.tail ++ [b] := by
    rw [List.drop_append_of_le_length hq, htail]
  have hlive' := absorb_liveAs b hlive
  have h128 : r.buflen.toNat < 128 := hlen ▸ Nat.lt_of_lt_of_le hd (Variant_blockBytes_le v)
  rcases Nat.lt_or_eq_of_le hd with hl | he
  · have hM' : (M ++ [b]).length = blockBytes v.W * q + (d + 1) := by
      rw [List.length_append, hM]
      rfl
    refine (absorbed_iff hM' hl).mpr ⟨hlive', ?_⟩
    rw [absorb_of_lt b (by omega), counter_storeByte, chain_storeByte, Regs.storeByte_buflen, buflen_succ h128, hlen,
      tail_storeByte b r h128, hgrown, chainAfter_append v [b] hq]
    exact ⟨hctr, rfl, rfl, hchain⟩
  · have hfull : r.buflen.toNat + 1 = blockBytes v.W := by omega
    have hM' : (M ++ [b]).length = blockBytes v.W * (q + 1) := by
      rw [List.length_append, hM, Nat.mul_succ, List.length_singleton]
      omega
    have hctr' : r.counter v.W + BitVec.ofNat (2 * v.W) (blockBytes v.W) =
        BitVec.ofNat (2 * v.W) (blockBytes v.W * (q + 1)) := by
      rw [hctr, ← BitVec.ofNat_add, Nat.mul_succ]
    have hblock : blockAt (blockBytes v.W) q (M ++ [b]) = r.tail ++ [b] := by
      rw [blockAt, Nat.mul_comm, hgrown, List.take_of_length_le]
      rw [List.length_append, tail_length r (by omega), List.length_singleton, hfull]
    refine (absorbed_iff (q := q + 1) (d := 0) hM' (Variant_blockBytes_pos v)).mpr ⟨hlive', ?_⟩
    rw [absorb_of_eq b hfull, counter_compressBuffer, chain_compressBuffer, tail_compressBuffer, counter_storeByte,
      chain_storeByte, block_storeByte b hfull, hctr', bitCount_ofNat, chainAfter, chainAfter_append v [b] hq, hblock,
      hchain, ← Nat.mul_assoc]
    exact ⟨rfl, rfl, (List.drop_of_length_le (Nat.le_of_eq hM')).symm, rfl⟩

theorem absorbAll_absorbed {v : Variant} (l : List Byte) {M : List Byte} {r : Regs} (h : Absorbed v M r) :
    Absorbed v (M ++ l) (absorbAll v.params l r) := by
  induction l generalizing M r with
  | nil => rwa [List.append_nil]
  | cons b l ih =>
    rw [List.append_cons]
    exact ih (absorb_absorbed b h)

/-- Settles O23: by induction on the payload, one byte at a time. -/
theorem engineHoldsTheMessageAbsorbed : Obligations.EngineHoldsTheMessageAbsorbed := by
  refine ⟨fun v s => ⟨_, execInit_of_size v s, startHash_absorbed v s.toRegs⟩, fun v M len s h hlen => ?_⟩
  have ⟨⟨hfin, hvar, hbuf, _⟩, _⟩ := h
  exact ⟨_, execUpdate_of_live hfin (liveVariant_eq_ok.mpr ⟨hvar, hbuf⟩) hlen, absorbAll_absorbed _ h⟩

end Sys2Proof.Machine
end

/-! ## Live engines outside R21 or R26 (log entry 8) -/

section
namespace Sys2Proof.Machine

theorem liveVariant_of_not_size {r : Regs} (h : ∀ v : Variant, r.var ≠ v.size) : r.liveVariant = .error .varNotAVariant := by
  simp [Regs.liveVariant, variantOf_eq_none.mpr h]

theorem liveVariant_of_full {r : Regs} {v : Variant} (hv : r.var = v.size) (h : blockBytes v.W ≤ r.buflen.toNat) :
    r.liveVariant = .error .buflenNotBelowBlock := by
  simp [Regs.liveVariant, hv, Nat.not_lt.mpr h]

theorem Variant_size_toNat_mem (v : Variant) : v.size.toNat ∈ [224, 256, 384, 512] := by cases v <;> decide

theorem execUpdate_of_error {len : BitVec 28} {s : State} {f : Fault} (hf : s.fin = false) (hv : s.liveVariant = .error f)
    (h : len.toNat ≤ s.din.length) : execUpdate len s = .fault f := by
  simp [execUpdate, dinPop_of_le h, Regs.dead, hf, hv]

theorem execFinal_of_error {s : State} {f : Fault} (hf : s.fin = false) (hv : s.liveVariant = .error f) :
    execFinal s = .fault f := by
  simp [execFinal, Regs.dead, hf, hv]

/-- Settles O41: the check of a live engine fails by name, and both commands stop with its fault. -/
theorem liveEngineOutsideTheInvariantStops : Obligations.LiveEngineOutsideTheInvariantStops := by
  intro s len hf hl
  have hstop {f : Fault} (hv : s.liveVariant = .error f) : exec .final s = .fault f ∧ exec (.update len) s = .fault f :=
    ⟨execFinal_of_error hf hv, execUpdate_of_error hf hv hl⟩
  refine ⟨fun hvar => hstop (liveVariant_of_not_size fun v hv => hvar ?_), fun v hv hfull => hstop (liveVariant_of_full hv hfull)⟩
  rw [hv]
  exact Variant_size_toNat_mem v

end Sys2Proof.Machine
end

/-! ## States no output tells apart (R20, R25, R34, R35): commands and steps take them to such states again -/

section
namespace Sys2Proof.Machine

/-- Two outcomes of a step that tell nothing apart: next states that no sequence of commands tells apart, or the same stop. -/
inductive Alike : Host.Outcome State Fault Refusal → Host.Outcome State Fault Refusal → Prop
  | next {s t : State} (h : Indistinguishable s t) : Alike (.next s) (.next t)
  | fault (f : Fault) : Alike (.fault f) (.fault f)
  | refused (r : Refusal) : Alike (.refused r) (.refused r)

theorem Alike.of_next {s : State} {o : Host.Outcome State Fault Refusal} (h : Alike (.next s) o) :
    ∃ t, o = .next t ∧ Indistinguishable s t := by
  cases h with
  | next h => exact ⟨_, rfl, h⟩

/-! ### Registers -/

theorem SameReadable.refl (r : Regs) : SameReadable r r :=
  ⟨rfl, fun _ => ⟨rfl, rfl, rfl, fun _ _ => ⟨rfl, rfl⟩⟩⟩

/-- Of a dead engine no register but `fin` is read (R35). -/
theorem sameReadable_of_dead {r q : Regs} (hr : r.fin = true) (hq : q.fin = true) : SameReadable r q :=
  ⟨hr.trans hq.symm, fun hf => absurd (hr.symm.trans hf) Bool.noConfusion⟩

/-- What is read of a live engine of variant `v`. -/
theorem sameReadable_iff_of_live {v : Variant} {r q : Regs} (hf : r.fin = false) (hv : r.var = v.size) :
    SameReadable r q ↔ q.fin = false ∧ q.var = v.size ∧ r.buflen = q.buflen ∧ r.tail = q.tail ∧
      r.chain v.W = q.chain v.W ∧ r.counter v.W = q.counter v.W := by
  constructor
  · rintro ⟨hfin, hlive⟩
    obtain ⟨hvar, hbuf, htail, hwide⟩ := hlive hf
    obtain ⟨hchain, hctr⟩ := hwide v (variantOf_eq_some.mpr hv)
    exact ⟨hfin.symm.trans hf, hvar.symm.trans hv, hbuf, htail, hchain, hctr⟩
  · rintro ⟨hqf, hqv, hbuf, htail, hchain, hctr⟩
    refine ⟨hf.trans hqf.symm, fun _ => ⟨hv.trans hqv.symm, hbuf, htail, fun w hw => ?_⟩⟩
    obtain rfl : v = w := Variant_size_injective (hv.symm.trans (variantOf_eq_some.mp hw))
    exact ⟨hchain, hctr⟩

theorem startHash_sameReadable (v : Variant) (r q : Regs) : SameReadable (startHash v r) (startHash v q) :=
  (sameReadable_iff_of_live rfl rfl).mpr ⟨rfl, rfl, rfl, by simp, by simp, by simp⟩

/-- The check of a live engine reads `var` and `buflen`. -/
theorem liveVariant_congr {r q : Regs} (hf : r.fin = false) (h : SameReadable r q) : r.liveVariant = q.liveVariant := by
  obtain ⟨-, hlive⟩ := h
  obtain ⟨hvar, hbuf, -, -⟩ := hlive hf
  rw [Regs.liveVariant, Regs.liveVariant, hvar, hbuf]

theorem absorb_liveVariant {v : Variant} {r : Regs} (b : Byte) (h : r.liveVariant = .ok v) :
    (absorb v.params r b).liveVariant = .ok v := by
  obtain ⟨hvar, hlen⟩ := liveVariant_eq_ok.mp h
  rw [liveVariant_eq_ok, absorb_var, absorb_buflen b hlen]
  exact ⟨hvar, Nat.mod_lt _ (Variant_blockBytes_pos v)⟩

/-- What can be read after `Absorb` depends on what could be read before: neither the bytes of `BUF` from `buflen` on nor the unused
storage enter it. -/
theorem absorb_sameReadable {v : Variant} {r q : Regs} (b : Byte) (hf : r.fin = false) (hv : r.liveVariant = .ok v)
    (h : SameReadable r q) : SameReadable (absorb v.params r b) (absorb v.params q b) := by
  obtain ⟨hvar, hlen⟩ := liveVariant_eq_ok.mp hv
  obtain ⟨hqf, hqv, hbuf, htail, hchain, hctr⟩ := (sameReadable_iff_of_live hf hvar).mp h
  have h128 : r.buflen.toNat < 128 := Nat.lt_of_lt_of_le hlen (Variant_blockBytes_le v)
  rw [sameReadable_iff_of_live (by rw [absorb_fin, hf]) (by rw [absorb_var, hvar]), absorb_fin, absorb_var]
  refine ⟨hqf, hqv, ?_⟩
  rcases Nat.lt_or_eq_of_le hlen with hl | he
  · rw [absorb_of_lt b hl, absorb_of_lt b (hbuf ▸ hl), tail_storeByte b r h128, tail_storeByte b q (hbuf ▸ h128)]
    simp [hbuf, htail, hchain, hctr]
  · have he' : q.buflen.toNat + 1 = blockBytes v.W := hbuf ▸ he
    rw [absorb_of_eq b he, absorb_of_eq b he']
    simp [block_storeByte b he, block_storeByte b he', htail, hchain, hctr]

theorem absorbAll_sameReadable {v : Variant} (l : List Byte) {r q : Regs} (hf : r.fin = false) (hv : r.liveVariant = .ok v)
    (h : SameReadable r q) : SameReadable (absorbAll v.params l r) (absorbAll v.params l q) := by
  induction l generalizing r q with
  | nil => exact h
  | cons b l ih => exact ih ((absorb_fin _ r b).trans hf) (absorb_liveVariant b hv) (absorb_sameReadable b hf hv h)

theorem finalize_digest_congr {v : Variant} {r q : Regs} (hf : r.fin = false) (hv : r.var = v.size) (h : SameReadable r q) :
    (finalize v.params r).2 = (finalize v.params q).2 := by
  obtain ⟨-, -, -, htail, hchain, hctr⟩ := (sameReadable_iff_of_live hf hv).mp h
  rw [finalize_digest, finalize_digest, htail, hchain, hctr]

/-! ### Commands and steps: two such states are one state with two sets of registers -/

theorem indistinguishable_withRegs {r q : Regs} (s : State) (h : SameReadable r q) :
    Indistinguishable (s.withRegs r) (s.withRegs q) :=
  ⟨h, ⟨rfl, rfl, rfl, rfl, rfl, rfl⟩, rfl, rfl, rfl⟩

theorem Indistinguishable.eq_withRegs {s t : State} (h : Indistinguishable s t) : t = s.withRegs t.toRegs := by
  obtain ⟨-, ⟨hcmd, hrsp, hdout, hrst, htaken, hresets⟩, hwait, hdin, hoffer⟩ := h
  cases t
  simp_all [State.withRegs]

theorem Indistinguishable.output_eq {s t : State} (h : Indistinguishable s t) : s.output = t.output := by
  rw [h.eq_withRegs, State.output, State.output, State.withRegs_taken, State.withRegs_offer]

theorem execInit_alike {s : State} {q : Regs} (size : BitVec 10) (h : SameReadable s.toRegs q) :
    Alike (execInit size s) (execInit size (s.withRegs q)) := by
  cases hv : variantOf size with
  | none =>
    rw [execInit_of_none hv, execInit_of_none hv]
    exact .next (indistinguishable_withRegs (raiseError .invalidVariant s) h)
  | some v =>
    rw [variantOf_eq_some.mp hv, execInit_of_size, execInit_of_size]
    exact .next (indistinguishable_withRegs (respondOk s) (startHash_sameReadable v _ _))

theorem execUpdate_alike {s : State} {q : Regs} (len : BitVec 28) (h : SameReadable s.toRegs q) :
    Alike (execUpdate len s) (execUpdate len (s.withRegs q)) := by
  have hfin : s.fin = q.fin := h.1
  rcases Nat.lt_or_ge s.din.length len.toNat with hl | hl
  · rw [execUpdate_of_short hl, execUpdate_of_short (s := s.withRegs q) hl]
    exact .next (indistinguishable_withRegs (s.awaitPayload len) h)
  cases hf : s.fin with
  | true =>
    rw [execUpdate_of_dead hf hl, execUpdate_of_dead (s := s.withRegs q) (hfin.symm.trans hf) hl]
    exact .next (indistinguishable_withRegs (raiseError .invalidState (s.afterPayload len.toNat)) h)
  | false =>
    have hqf : q.fin = false := hfin.symm.trans hf
    have hq : q.liveVariant = s.liveVariant := (liveVariant_congr hf h).symm
    cases hv : s.liveVariant with
    | error f =>
      rw [execUpdate_of_error hf hv hl, execUpdate_of_error (s := s.withRegs q) hqf (hq.trans hv) hl]
      exact .fault f
    | ok v =>
      rw [execUpdate_of_live hf hv hl, execUpdate_of_live (s := s.withRegs q) hqf (hq.trans hv) hl]
      exact .next (indistinguishable_withRegs (respondOk (s.afterPayload len.toNat)) (absorbAll_sameReadable _ hf hv h))

theorem execFinal_alike {s : State} {q : Regs} (h : SameReadable s.toRegs q) :
    Alike (execFinal s) (execFinal (s.withRegs q)) := by
  have hfin : s.fin = q.fin := h.1
  cases hf : s.fin with
  | true =>
    rw [execFinal_of_dead hf, execFinal_of_dead (s := s.withRegs q) (hfin.symm.trans hf)]
    exact .next (indistinguishable_withRegs (raiseError .invalidState s) h)
  | false =>
    have hqf : q.fin = false := hfin.symm.trans hf
    have hq : q.liveVariant = s.liveVariant := (liveVariant_congr hf h).symm
    cases hv : s.liveVariant with
    | error f =>
      rw [execFinal_of_error hf hv, execFinal_of_error (s := s.withRegs q) hqf (hq.trans hv)]
      exact .fault f
    | ok v =>
      rw [execFinal_of_live hf hv, execFinal_of_live (s := s.withRegs q) hqf (hq.trans hv), State.withRegs_toRegs,
        ← finalize_digest_congr hf (liveVariant_eq_ok.mp hv).1 h]
      exact .next (indistinguishable_withRegs (respondDigest (finalize v.params s.toRegs).2 v.params.digestBytes s)
        (sameReadable_of_dead rfl rfl))

theorem exec_alike {s : State} {q : Regs} (i : Instr) (h : SameReadable s.toRegs q) :
    Alike (exec i s) (exec i (s.withRegs q)) := by
  cases i with
  | init size => exact execInit_alike size h
  | update len => exact execUpdate_alike len h
  | final => exact execFinal_alike h

theorem execWord_alike {s : State} {q : Regs} (cw : BitVec 32) (h : SameReadable s.toRegs q) :
    Alike (execWord cw s) (execWord cw (s.withRegs q)) := by
  unfold execWord
  cases decode cw with
  | error e => exact .next (indistinguishable_withRegs (raiseError .invalidCommand s) h)
  | ok i => exact exec_alike i h

theorem drain_withRegs (s : State) (q : Regs) : (s.withRegs q).drain = s.drain.withRegs q := rfl

/-- A reset forgets the registers: its free values depend on the number of the reset alone (log entries 2 and 3). -/
theorem hardReset_withRegs (s : State) (q : Regs) : (s.withRegs q).hardReset = s.hardReset := rfl

theorem runCommand_of_nil {s : State} (h : s.cmd = []) : runCommand s = .next s := by
  simp [runCommand, State.cmdPop, h]

theorem runCommand_of_cons {s : State} {cw : BitVec 32} {rest : List (BitVec 32)} (h : s.cmd = cw :: rest) :
    runCommand s = execWord cw (s.withCmd rest) := by
  simp [runCommand, State.cmdPop, h]

theorem runCommand_alike {s : State} {q : Regs} (h : SameReadable s.toRegs q) :
    Alike (runCommand s) (runCommand (s.withRegs q)) := by
  cases hc : s.cmd with
  | nil =>
    rw [runCommand_of_nil hc, runCommand_of_nil (s := s.withRegs q) hc]
    exact .next (indistinguishable_withRegs s h)
  | cons cw rest =>
    rw [runCommand_of_cons hc, runCommand_of_cons (s := s.withRegs q) hc]
    exact execWord_alike (s := s.withCmd rest) cw h

theorem resumeOrRun_alike {s : State} {q : Regs} (h : SameReadable s.toRegs q) :
    Alike (resumeOrRun s) (resumeOrRun (s.withRegs q)) := by
  unfold resumeOrRun
  rw [State.withRegs_waiting]
  cases s.waiting with
  | some len => exact exec_alike (.update len) h
  | none => exact runCommand_alike h

/-- The channels decide which of the things of `step_cases` a step is, so that two engines with the same channels do the same one. -/
theorem step_alike {s t : State} (h : Indistinguishable s t) : Alike (step s) (step t) := by
  rw [h.eq_withRegs]
  unfold step commandLoop
  rw [State.withRegs_rst, hardReset_withRegs, drain_withRegs, State.withRegs_offer]
  split_ifs
  · exact .next (indistinguishable_withRegs s.hardReset (.refl _))
  · exact resumeOrRun_alike (s := s.drain) h.1
  · exact .next (indistinguishable_withRegs s.drain h.1)

theorem runSteps_alike (n : Nat) {s t : State} (h : Indistinguishable s t) : Alike (runSteps n s) (runSteps n t) := by
  induction n generalizing s t with
  | zero => exact .next h
  | succ n ih =>
    have hstep := step_alike h
    unfold runSteps
    generalize step s = o, step t = o' at hstep
    cases hstep with
    | next h => exact ih h
    | fault f => exact .fault f
    | refused r => exact .refused r

/-- Settles O17: two dead engines with the same channels cannot be told apart, and no number of steps tells them apart. -/
theorem unspecifiedRegistersAreNeverSeen : Obligations.UnspecifiedRegistersAreNeverSeen := by
  intro s r q n s' hr hq hrun
  have halike := runSteps_alike n (indistinguishable_withRegs s (sameReadable_of_dead hr hq))
  rw [hrun] at halike
  obtain ⟨t', ht', hsame⟩ := halike.of_next
  have ⟨_, ⟨hcmd, _⟩, _, hdin, _⟩ := hsame
  exact ⟨t', ht', hsame.output_eq, hdin, hcmd⟩

end Sys2Proof.Machine
end

/-! ## The storage a narrow variant does not use (R20, log entry 4) -/

section
namespace Sys2Proof.Machine

/-- The storage that words of `W` bits do not use holds the same: each word of `H` from bit `W` on, `ctr` from bit `2*W` on, and
`BUF` from the block size on. -/
def SameUnused (W : Nat) (r q : Regs) : Prop :=
  (∀ j : Fin 8, r.H[j] >>> W = q.H[j] >>> W) ∧ r.ctr >>> (2 * W) = q.ctr >>> (2 * W) ∧
  (∀ j : Fin 128, blockBytes W ≤ j.val → r.BUF[j] = q.BUF[j])

theorem SameUnused.refl (W : Nat) (r : Regs) : SameUnused W r r := ⟨fun _ => rfl, rfl, fun _ _ => rfl⟩

theorem SameUnused.trans {W : Nat} {r q p : Regs} (h : SameUnused W r q) (h' : SameUnused W q p) : SameUnused W r p := by
  obtain ⟨hH, hctr, hbuf⟩ := h
  obtain ⟨hH', hctr', hbuf'⟩ := h'
  exact ⟨fun j => (hH j).trans (hH' j), hctr.trans hctr', fun j hj => (hbuf j hj).trans (hbuf' j hj)⟩

theorem setChain_sameUnused {W : Nat} (h : Chain W) (r : Regs) : SameUnused W (r.setChain h) r :=
  ⟨fun j => by simp [mergeLow_high], rfl, fun _ _ => rfl⟩

theorem setCounter_sameUnused {W : Nat} (c : BitVec (2 * W)) (r : Regs) : SameUnused W (r.setCounter c) r :=
  ⟨fun _ => rfl, mergeLow_high r.ctr c, fun _ _ => rfl⟩

/-- A byte stored inside the block stays clear of the bytes behind it. -/
theorem storeByte_sameUnused {W : Nat} (b : Byte) {r : Regs} (h : r.buflen.toNat < blockBytes W) :
    SameUnused W (r.storeByte b) r := by
  refine ⟨fun _ => rfl, rfl, fun j hj => ?_⟩
  simp only [Regs.storeByte_BUF, Fin.getElem_fin]
  exact Vector.getElem_setIfInBounds_ne _ (by omega)

theorem startHash_sameUnused (v : Variant) (r : Regs) : SameUnused v.W (startHash v r) r :=
  (setCounter_sameUnused (W := v.W) 0 (r.setChain v.params.iv)).trans (setChain_sameUnused v.params.iv r)

theorem compressBuffer_sameUnused {W : Nat} (p : Params W) (r : Regs) : SameUnused W (compressBuffer p r) r :=
  (setChain_sameUnused _ (r.setCounter _)).trans (setCounter_sameUnused _ r)

theorem absorb_sameUnused {v : Variant} {r : Regs} (b : Byte) (h : r.buflen.toNat < blockBytes v.W) :
    SameUnused v.W (absorb v.params r b) r := by
  rcases Nat.lt_or_eq_of_le h with hl | he
  · rw [absorb_of_lt b hl]
    exact storeByte_sameUnused b h
  · rw [absorb_of_eq b he]
    exact (compressBuffer_sameUnused _ _).trans (storeByte_sameUnused b h)

theorem absorbAll_sameUnused {v : Variant} (l : List Byte) {r : Regs} (h : r.buflen.toNat < blockBytes v.W) :
    SameUnused v.W (absorbAll v.params l r) r := by
  induction l generalizing r with
  | nil => exact .refl _ r
  | cons b l ih =>
    have hb : (absorb v.params r b).buflen.toNat < blockBytes v.W :=
      absorb_buflen b h ▸ Nat.mod_lt _ (Variant_blockBytes_pos v)
    exact (ih hb).trans (absorb_sameUnused b h)

theorem finalize_sameUnused {W : Nat} (p : Params W) (r : Regs) : SameUnused W (finalize p r).1.makeDead r :=
  setChain_sameUnused _ r

/-- A command that leaves the engine on variant `v` keeps the storage `v` does not use: it wrote at no other width than `v`'s. -/
theorem exec_sameUnused {i : Instr} {s t : State} {v : Variant} (h : exec i s = .next t) (hv : t.var = v.size) :
    SameUnused v.W t.toRegs s.toRegs := by
  rcases exec_regs_cases h with hk | ⟨w, -, ht⟩ | ⟨w, len, -, -, hw, ht⟩ | ⟨w, -, -, hw, ht⟩
  · rw [hk]
    exact .refl _ _
  · obtain rfl : w = v := Variant_size_injective (by rw [← hv, ht, startHash_var])
    rw [ht]
    exact startHash_sameUnused w _
  · obtain ⟨hvar, hlen⟩ := liveVariant_eq_ok.mp hw
    obtain rfl : w = v := Variant_size_injective (by rw [← hv, ← hvar, ht, absorbAll_var])
    rw [ht]
    exact absorbAll_sameUnused _ hlen
  · obtain ⟨hvar, -⟩ := liveVariant_eq_ok.mp hw
    obtain rfl : w = v := Variant_size_injective (by rw [← hv, ← hvar, ht, Regs.makeDead_var, finalize_var])
    rw [ht]
    exact finalize_sameUnused _ _

/-- Settles O58: what a command keeps at the width of the variant it ends on, read at 32. The check of a live engine keeps `buflen`
inside the block, so that the premise `EngineInv` is not needed. -/
theorem narrowVariantsKeepTheUnusedStorage : Obligations.NarrowVariantsKeepTheUnusedStorage := by
  intro i s t v _ hx hv hW
  have h := exec_sameUnused hx hv
  rwa [hW] at h

end Sys2Proof.Machine
end

/-! ## The channels (20_memory.md section 1): what a step takes from the host and what a command answers -/

section
namespace Sys2Proof.Machine

theorem cmdReady_eq_true {s : State} : s.cmdReady = true ↔ s.rst = false ∧ s.waiting = none ∧ s.offer = [] := by
  simp [State.cmdReady, and_assoc]

/-- What a step that answers a next state has done: a reset, no more than letting the host take output, going on with the `UPDATE` in
progress, or taking the first command word of an engine ready for it and executing it. -/
theorem step_next_cases {s t : State} (h : step s = .next t) :
    (s.rst = true ∧ t = s.hardReset) ∨ t = s.drain ∨
    (∃ len, s.waiting = some len ∧ exec (.update len) s.drain = .next t) ∨
    (∃ cw, s.drain.cmdReady = true ∧ s.cmd = cw :: t.cmd ∧ execWord cw (s.drain.withCmd t.cmd) = .next t) := by
  rcases step_cases s with ⟨hr, hs⟩ | ⟨-, -, hs⟩ | ⟨len, -, -, hw, hs⟩ | ⟨-, -, -, -, hs⟩ | ⟨cw, rest, hr, ho, hw, hc, hs⟩
  · rw [hs] at h; cases h; exact .inl ⟨hr, rfl⟩
  · rw [hs] at h; cases h; exact .inr (.inl rfl)
  · exact .inr (.inr (.inl ⟨len, hw, hs.symm.trans h⟩))
  · rw [hs] at h; cases h; exact .inr (.inl rfl)
  · rw [hs] at h
    obtain ⟨hcmd, -⟩ := execWord_frame h
    obtain rfl : rest = t.cmd := hcmd
    exact .inr (.inr (.inr ⟨cw, cmdReady_eq_true.mpr ⟨hr, hw, ho⟩, hc, h⟩))

/-- Settles O10: a reset, the host's taking of output and an `UPDATE` in progress leave the command channel alone. -/
theorem commandTakenOnlyWhenReady : Obligations.CommandTakenOnlyWhenReady := by
  intro s t h hne
  rcases step_next_cases h with ⟨-, rfl⟩ | rfl | ⟨len, -, hx⟩ | ⟨cw, hready, hcmd, -⟩
  · exact absurd (State.hardReset_cmd s) hne
  · exact absurd (State.drain_cmd s) hne
  · obtain ⟨hcmd, -⟩ := exec_frame hx
    exact absurd hcmd.symm hne
  · exact ⟨hready, cw, hcmd⟩

/-- What a command can do to data-in: leave it, or, an `UPDATE` with its payload there, take that payload. -/
theorem exec_din_cases {i : Instr} {s t : State} (h : exec i s = .next t) :
    t.din = s.din ∨ ∃ len, i = .update len ∧ len.toNat ≤ s.din.length ∧ t.din = s.din.drop len.toNat := by
  cases i with
  | init size => rcases execInit_cases h with ⟨-, rfl⟩ | ⟨v, -, rfl⟩ <;> exact .inl rfl
  | update len =>
    rcases execUpdate_cases h with ⟨-, rfl⟩ | ⟨hl, -, rfl⟩ | ⟨v, hl, -, -, rfl⟩
    · exact .inl rfl
    · exact .inr ⟨len, rfl, hl, rfl⟩
    · exact .inr ⟨len, rfl, hl, rfl⟩
  | final => rcases execFinal_cases h with ⟨-, rfl⟩ | ⟨v, -, -, rfl⟩ <;> exact .inl rfl

/-- Settles O11: of the things a step can be, only an `UPDATE`, in progress or just taken, takes bytes from data-in. -/
theorem payloadTakenOnlyByUpdate : Obligations.PayloadTakenOnlyByUpdate := by
  intro s t hrst h hne
  rcases step_next_cases h with ⟨hr, -⟩ | rfl | ⟨len, hw, hx⟩ | ⟨cw, hready, hcmd, hx⟩
  · exact absurd (hrst.symm.trans hr) Bool.noConfusion
  · exact absurd (State.drain_din s) hne
  · rcases exec_din_cases hx with hk | ⟨_, ⟨⟩, hl, hd⟩
    · exact absurd hk hne
    · exact ⟨len, .inl hw, hl, hd⟩
  · rcases execWord_cases cw (s.drain.withCmd t.cmd) with ⟨e, -, he⟩ | ⟨i, hdec, hi⟩
    · exact absurd (congrArg State.din (Host.Outcome.next.inj (hx.symm.trans he))) hne
    · rcases exec_din_cases (hi ▸ hx) with hk | ⟨len, rfl, hl, hd⟩
      · exact absurd hk hne
      · obtain ⟨-, hw, -⟩ := cmdReady_eq_true.mp hready
        exact ⟨len, .inr ⟨hw, cw, hcmd, hdec⟩, hl, hd⟩

/-- A response word as a number: `dlen` above bit 8, `status` below bit 4 (R86). -/
theorem responseWord_toNat (dlen : BitVec 8) (status : BitVec 4) :
    (responseWord dlen status).toNat = 2 ^ 8 * dlen.toNat + status.toNat := by
  rw [responseWord, append_toNat, append_toNat, BitVec.toNat_zero]
  omega

/-- The answer of a command that completes: one response word, then the digest bytes its `dlen` field counts. -/
theorem exec_answer {i : Instr} {s t : State} (h : exec i s = .next t) (hw : t.waiting = none) :
    ∃ (dlen : BitVec 8) (status : BitVec 4) (d : List Byte),
      t.offer = s.offer ++ .rsp (responseWord dlen status) :: d.map .dout ∧ dlen.toNat = d.length := by
  cases i with
  | init size => rcases execInit_cases h with ⟨-, rfl⟩ | ⟨v, -, rfl⟩ <;> exact ⟨0, _, [], rfl, rfl⟩
  | update len =>
    rcases execUpdate_cases h with ⟨-, rfl⟩ | ⟨-, -, rfl⟩ | ⟨v, -, -, -, rfl⟩
    · cases hw
    · exact ⟨0, _, [], rfl, rfl⟩
    · exact ⟨0, _, [], rfl, rfl⟩
  | final =>
    rcases execFinal_cases h with ⟨-, rfl⟩ | ⟨v, -, -, rfl⟩
    · exact ⟨0, _, [], rfl, rfl⟩
    · have hN : v.params.digestBytes < 256 := by cases v <;> decide
      refine ⟨_, statusOk, (finalize v.params s.toRegs).2, List.append_assoc .., ?_⟩
      rw [finalize_digest, finalizeFrom_digest_length, BitVec.toNat_ofNat, Nat.mod_eq_of_lt hN]

/-- Settles O13: the fields of the response word in the answer of each command. -/
theorem oneResponsePerCommand : Obligations.OneResponsePerCommand := by
  intro i s t h hw
  obtain ⟨dlen, status, d, hoffer, hlen⟩ := exec_answer h hw
  have hstatus : status.toNat < 16 := status.isLt
  refine ⟨_, d, hoffer, ?_, ?_⟩ <;> rw [responseWord_toNat] <;> omega

end Sys2Proof.Machine
end

/-! ## The block buffer (20_memory.md section 3): where `UPDATE` stores -/

section
namespace Sys2Proof.Machine

/-- The last byte of a payload goes to its offset, modulo the block size; every other offset holds what the bytes before it left. -/
theorem absorbAll_concat_BUF {v : Variant} (l : List Byte) (b : Byte) {r : Regs} (h : r.buflen.toNat < blockBytes v.W)
    (j : Fin 128) : (absorbAll v.params (l ++ [b]) r).BUF[j] =
      if (r.buflen.toNat + l.length) % blockBytes v.W = j.val then b else (absorbAll v.params l r).BUF[j] := by
  have hBUF : (absorbAll v.params (l ++ [b]) r).BUF =
      (absorbAll v.params l r).BUF.setIfInBounds ((r.buflen.toNat + l.length) % blockBytes v.W) b := by
    rw [absorbAll_append, absorbAll_cons, absorbAll_nil, absorb_BUF, absorbAll_buflen l h]
  simp only [hBUF, Fin.getElem_fin, Vector.getElem_setIfInBounds]

theorem absorbAll_BUF_of_not_stored {v : Variant} (l : List Byte) {r : Regs} (h : r.buflen.toNat < blockBytes v.W) {j : Fin 128}
    (hj : ∀ k < l.length, (r.buflen.toNat + k) % blockBytes v.W ≠ j.val) :
    (absorbAll v.params l r).BUF[j] = r.BUF[j] := by
  induction l using List.reverseRecOn with
  | nil => rfl
  | append_singleton l b ih =>
    rw [List.length_append, List.length_singleton] at hj
    rw [absorbAll_concat_BUF l b h, if_neg (hj _ (Nat.lt_succ_self _))]
    exact ih fun k hk => hj k (Nat.lt_succ_of_lt hk)

/-- The last bytes stored, at most a block of them, are not overwritten: their offsets are different. -/
theorem absorbAll_BUF_of_stored {v : Variant} (l : List Byte) {r : Regs} (h : r.buflen.toNat < blockBytes v.W) {j : Fin 128}
    {k : Nat} (hk : k < l.length) (hlast : l.length ≤ k + blockBytes v.W)
    (hj : (r.buflen.toNat + k) % blockBytes v.W = j.val) : some (absorbAll v.params l r).BUF[j] = l[k]? := by
  induction l using List.reverseRecOn with
  | nil => cases hk
  | append_singleton l b ih =>
    rw [List.length_append, List.length_singleton] at hk hlast
    rw [absorbAll_concat_BUF l b h]
    rcases Nat.lt_or_eq_of_le (Nat.le_of_lt_succ hk) with hl | rfl
    · have hoff : (r.buflen.toNat + l.length) % blockBytes v.W ≠ j.val := by
        intro he
        have hmod : r.buflen.toNat + k ≡ r.buflen.toNat + l.length [MOD blockBytes v.W] := hj.trans he.symm
        exact absurd (Nat.le_of_dvd (by omega) ((Nat.modEq_iff_dvd' (by omega)).mp hmod)) (by omega)
      rw [if_neg hoff, List.getElem?_append_left hl]
      exact ih hl (by omega)
    · rw [if_pos hj, List.getElem?_concat_length]

/-- Settles O30: the payload is the first `len` bytes of data-in, absorbed by a live engine. -/
theorem updateStoresItsPayloadInTheBuffer : Obligations.UpdateStoresItsPayloadInTheBuffer := by
  rintro v len s ⟨hfin, hvar, hbuf, -⟩ hlen
  have hl : (s.din.take len.toNat).length = len.toNat := List.length_take_of_le hlen
  refine ⟨_, execUpdate_of_live hfin (liveVariant_eq_ok.mpr ⟨hvar, hbuf⟩) hlen, ?_, ?_, ?_⟩
  · exact fun j hj => absorbAll_BUF_of_not_stored _ hbuf (hl.symm ▸ hj)
  · intro j k hk hlast hj
    rw [← List.getElem?_take_of_lt hk]
    exact absorbAll_BUF_of_stored _ hbuf (hl.symm ▸ hk) (hl.symm ▸ hlast) hj
  · exact (absorbAll_buflen _ hbuf).trans (by rw [hl])

end Sys2Proof.Machine
end

/-! ## Words in byte strings (20_memory.md section 2): the length field and the digest -/

section
namespace Sys2Proof.Machine

theorem Variant_eight_mul_wordBytes (v : Variant) : 8 * wordBytes v.W = v.W := by cases v <;> rfl

theorem getElem?_beStore {k i : Nat} (hi : i < k) {m : Nat} (x : BitVec m) :
    (beStore k x)[i]? = some (x.extractLsb' (8 * (k - 1 - i)) 8) := by
  simp [beStore, hi]

/-- Storing `j + k` bytes: the word without its low `k` bytes, then these. -/
theorem beStore_add (j k : Nat) {m : Nat} (x : BitVec m) : beStore (j + k) x = beStore j (x >>> (8 * k)) ++ beStore k x := by
  induction k generalizing x with
  | zero => simp
  | succ k ih =>
    rw [← Nat.add_assoc, beStore_succ, ih, beStore_succ k, List.append_assoc, ← BitVec.shiftRight_add, Nat.mul_succ,
      Nat.add_comm 8]

/-- A word read from the bytes of a wider one is the low word of it. -/
theorem beLoad_beStore_setWidth {W k m : Nat} (hW : 8 * k = W) (x : BitVec m) : beLoad W (beStore k x) = x.setWidth W := by
  subst hW
  apply BitVec.eq_of_toNat_eq
  simp [beLoad, beNat_beStore]

/-- Message word `j` is read from the word of bytes that stands after `j` words (R55). -/
theorem messageWord_append {W j : Nat} {P w : List Byte} (Q : List Byte) (hP : P.length = j * wordBytes W)
    (hw : w.length = wordBytes W) : messageWord W (P ++ (w ++ Q)) j = beLoad W w := by
  rw [messageWord, ← hP, List.drop_left, ← hw, List.take_left]

/-- Settles O46: the length field is two words of bytes, and the first fourteen words of the block stand before it. -/
theorem lengthFieldIsTheLastTwoWords : Obligations.LengthFieldIsTheLastTwoWords := by
  intro v P L hP
  have hW := Variant_eight_mul_wordBytes v
  have hP14 : P.length = 14 * wordBytes v.W := by
    rw [hP, padLimit, blockBytes, lengthFieldBytes]
    omega
  have hfield : beStore (lengthFieldBytes v.W) L = beStore (wordBytes v.W) (L >>> v.W) ++ beStore (wordBytes v.W) L := by
    rw [lengthFieldBytes, Nat.two_mul, beStore_add, hW]
  constructor
  · rw [hfield, messageWord_append _ hP14 (beStore_length _ _), beLoad_beStore_setWidth hW,
      BitVec.setWidth_ushiftRight_eq_extractLsb]
  · have hP15 : (P ++ beStore (wordBytes v.W) (L >>> v.W)).length = 15 * wordBytes v.W := by
      rw [List.length_append, beStore_length, hP14]
      omega
    rw [hfield, ← List.append_assoc, ← List.append_nil (beStore (wordBytes v.W) L),
      messageWord_append [] hP15 (beStore_length _ _), beLoad_beStore_setWidth hW,
      BitVec.setWidth_eq_extractLsb' (by omega)]

/-- Indexing a concatenation of pieces of one length: which piece, and where in it. -/
theorem getElem?_flatMap_of_length {α β : Type} {f : α → List β} {k : Nat} (hk : 0 < k) (hf : ∀ a, (f a).length = k) (l : List α)
    (j : Nat) : (l.flatMap f)[j]? = l[j / k]?.bind fun a => (f a)[j % k]? := by
  induction l generalizing j with
  | nil => rfl
  | cons a l ih =>
    rcases Nat.lt_or_ge j k with hj | hj
    · rw [List.flatMap_cons, List.getElem?_append_left (hf a ▸ hj), Nat.div_eq_of_lt hj, Nat.mod_eq_of_lt hj]
      rfl
    · rw [List.flatMap_cons, List.getElem?_append_right (hf a ▸ hj), hf, ih, Nat.div_eq_sub_div hk hj, Nat.mod_eq_sub_mod hj,
        List.getElem?_cons_succ]

/-- Byte `j` of a chaining value stands in word `j / WB`, `j mod WB` places below its most significant byte (R57). -/
theorem getElem?_chainBytes {W j : Nat} (h : Chain W) (hW : 0 < wordBytes W) (hj : j / wordBytes W < 8) :
    (chainBytes h)[j]? = some (h[j / wordBytes W].extractLsb' (8 * (wordBytes W - 1 - j % wordBytes W)) 8) := by
  rw [chainBytes, getElem?_flatMap_of_length hW (beStore_length _), Vector.getElem?_toList, Vector.getElem?_eq_getElem hj,
    Option.bind_some, getElem?_beStore (Nat.mod_lt _ hW)]

/-- Settles O47: the digest is a prefix of the bytes of the last chaining value. -/
theorem digestIsTheChainingValueBigEndian : Obligations.DigestIsTheChainingValueBigEndian := by
  intro v h c tail j hN hj
  have hW : 0 < wordBytes v.W := by cases v <;> decide
  rw [← Variant_digestBytes] at hN ⊢
  refine ⟨finalizeFrom_digest_length v h c tail, ?_⟩
  rw [finalizeFrom_digest, digestOf, List.getElem?_take_of_lt hN, getElem?_chainBytes _ hW hj]

end Sys2Proof.Machine
end

/-! ## Command words (30_encoding.md sections 1, 3 and 5): the decoder and the encoder -/

section
namespace Sys2Proof.Machine

/-- A word is a concatenation exactly when the mask of the upper part reads the first piece and the bits below it are the second: how a
row of the opcode table names a word. -/
theorem eq_append_iff {m k : Nat} {x : BitVec (m + k)} {p : BitVec m} {y : BitVec k} :
    x = p ++ y ↔ x &&& (BitVec.allOnes m ++ (0 : BitVec k)) = p ++ (0 : BitVec k) ∧ y.toNat = x.toNat % 2 ^ k := by
  constructor
  · rintro rfl
    refine ⟨Laws.TableRow.append_and_high p y, ?_⟩
    rw [append_toNat, Nat.mul_add_mod, Nat.mod_eq_of_lt y.isLt]
  · rintro ⟨hp, hy⟩
    have hx : x.extractLsb' k m ++ x.extractLsb' 0 k = x := by
      rw [BitVec.extractLsb'_append_extractLsb'_eq_extractLsb' (Nat.zero_add k).symm, BitVec.extractLsb'_eq_self]
    have hlow : x.extractLsb' 0 k = y := BitVec.eq_of_toNat_eq (by rw [hy, BitVec.extractLsb'_toNat, Nat.shiftRight_zero])
    rw [← hx, Laws.TableRow.append_and_high, BitVec.append_left_inj] at hp
    rw [← hp, ← hlow, hx]

/-- The encoding of a command decodes to it: the numbers of its word choose the branch and give the operand back (R92). -/
theorem decode_encode (i : Instr) : decode (encode i) = .ok i := by
  rw [decode_eq]
  cases i with
  | init size =>
    have hlt := size.isLt
    have hsize : BitVec.ofNat 10 (2 ^ 28 + size.toNat) = size := BitVec.eq_of_toNat_eq (by rw [BitVec.toNat_ofNat]; omega)
    rw [encode_init_toNat, if_pos (by omega), if_neg (by omega), hsize]
  | update len =>
    have hlt := len.isLt
    have hlen : BitVec.ofNat 28 (2 ^ 29 + len.toNat) = len := BitVec.eq_of_toNat_eq (by rw [BitVec.toNat_ofNat]; omega)
    rw [encode_update_toNat, if_neg (by omega), if_pos (by omega), hlen]
  | final => rfl

/-- A word decodes to a command exactly when it is the command's encoding (R82, R83, R84, R92). -/
theorem decode_eq_ok_iff {cw : BitVec 32} {i : Instr} : decode cw = .ok i ↔ cw = encode i := by
  refine ⟨fun h => BitVec.eq_of_toNat_eq ?_, fun h => h ▸ decode_encode i⟩
  have hlt := cw.isLt
  rw [decode_eq] at h
  split_ifs at h with hinit hzero hupdate hfinal hzero
  · cases h
    rw [encode_init_toNat, BitVec.toNat_ofNat]
    omega
  · cases h
    rw [encode_update_toNat, BitVec.toNat_ofNat]
    omega
  · cases h
    rw [show (encode .final).toNat = 3 * 2 ^ 28 from rfl]
    omega

/-- The words the decoder refuses are the reserved encodings (R85, R92). -/
theorem decode_error_iff {cw : BitVec 32} : (∃ e, decode cw = .error e) ↔ Reserved cw := by
  unfold Reserved
  rw [decode_eq]
  split_ifs with hinit hzero hupdate hfinal hzero
  · exact iff_of_true ⟨_, rfl⟩ (.inr (.inr (.inl ⟨hinit, hzero⟩)))
  · exact iff_of_false (fun ⟨_, h⟩ => by cases h) (by omega)
  · exact iff_of_false (fun ⟨_, h⟩ => by cases h) (by omega)
  · exact iff_of_true ⟨_, rfl⟩ (.inr (.inr (.inr ⟨hfinal, hzero⟩)))
  · exact iff_of_false (fun ⟨_, h⟩ => by cases h) (by omega)
  · exact iff_of_true ⟨_, rfl⟩ (by omega)

/-- Settles O1: by the command, on the numbers of its word. -/
theorem decodeOfEncode : Obligations.DecodeOfEncode := decode_encode

/-- Settles O2: each branch of the decoder that accepts fixes every bit of the word. -/
theorem encodeOfDecode : Obligations.EncodeOfDecode := fun _ _ h => (decode_eq_ok_iff.mp h).symm

/-- Settles O3: each format is the concatenation its row of the table names, and every other word is reserved. -/
theorem decodeMatchesOpcodeTable : Obligations.DecodeMatchesOpcodeTable := by
  intro cw
  refine ⟨fun size => ?_, fun len => ?_, ?_, decode_error_iff⟩
  · exact decode_eq_ok_iff.trans (eq_append_iff (m := 22) (k := 10) (x := cw) (p := 1#4 ++ 0#18) (y := size))
  · exact decode_eq_ok_iff.trans (eq_append_iff (m := 4) (k := 28) (x := cw) (p := 2#4) (y := len))
  · rw [decode_eq_ok_iff, show 0xFFFFFFFF#32 = BitVec.allOnes 32 from rfl, BitVec.and_allOnes]
    rfl

/-- Settles O4: six words are encodings, and on the two reserved ones the decoder is evaluated. -/
theorem specWordsDecode : Obligations.SpecWordsDecode :=
  ⟨decode_encode (.init 224), decode_encode (.init 256), decode_encode (.init 384), decode_encode (.init 512),
    decode_encode (.update 3), decode_encode .final, rfl, rfl⟩

theorem execWord_encode (i : Instr) (s : State) : execWord (encode i) s = exec i s := by
  rw [execWord, decode_encode]

theorem execWord_of_reserved {cw : BitVec 32} (h : Reserved cw) (s : State) :
    execWord cw s = .next (raiseError .invalidCommand s) := by
  obtain ⟨e, he⟩ := decode_error_iff.mpr h
  rw [execWord, he]

/-- The step of an engine whose host has taken all output and offers a command word (R50, R100). -/
theorem step_of_command {s : State} {cw : BitVec 32} {rest : List (BitVec 32)} (hr : s.rst = false) (hw : s.waiting = none)
    (ho : s.drain.offer = []) (hc : s.cmd = cw :: rest) : step s = execWord cw (s.drain.withCmd rest) := by
  have hcmd : s.drain.cmd = cw :: rest := hc
  simp [step, commandLoop, hr, ho, resumeOrRun, hw, runCommand_of_cons hcmd]

/-- A response word is the newest output (R52, R54). -/
theorem output_rspPush (w : BitVec 16) (s : State) : (s.rspPush w).output = s.output ++ [.rsp w] := by
  simp [State.output]

/-- Settles O7: the word is taken, refused by the decoder, and answered by the error entry alone. -/
theorem reservedWordRaisesInvalidCommand : Obligations.ReservedWordRaisesInvalidCommand := by
  intro s cw rest hr hw ho hc hres
  refine ⟨raiseError .invalidCommand (s.drain.withCmd rest), ?_, rfl, rfl, hw, rfl, ?_⟩
  · rw [step_of_command hr hw ho hc, execWord_of_reserved hres]
  · rw [← output_drain s]
    exact output_rspPush _ _

end Sys2Proof.Machine
end

/-! ## Response words (30_encoding.md section 4): which ones occur -/

section
namespace Sys2Proof.Machine

@[simp] theorem responsesOf_append (a b : List OutEvent) : responsesOf (a ++ b) = responsesOf a ++ responsesOf b :=
  List.filterMap_append

@[simp] theorem responsesOf_digest (d : List Byte) : responsesOf (d.map .dout) = [] := by
  simp [responsesOf, List.filterMap_map]

theorem errorResponse_legal (e : ErrorCause) : errorResponse e ∈ legalResponses := by cases e <;> decide

theorem digestResponse_legal (v : Variant) : digestResponse v.params.digestBytes ∈ legalResponses := by cases v <;> decide

/-- Losing output, as a reset does (R220), adds no response word. -/
theorem responsesLegal_of_subset {s t : State} (hsub : t.output ⊆ s.output) (h : ResponsesLegal s) : ResponsesLegal t :=
  fun w hw => h w (List.filterMap_subset _ hsub hw)

theorem rspPush_responsesLegal {w : BitVec 16} {s : State} (hw : w ∈ legalResponses) (h : ResponsesLegal s) :
    ResponsesLegal (s.rspPush w) := by
  intro x hx
  rw [output_rspPush, responsesOf_append, List.mem_append] at hx
  rcases hx with hx | hx
  · exact h x hx
  · rwa [List.mem_singleton.mp hx]

theorem doutPush_responsesLegal {s : State} (d : List Byte) (h : ResponsesLegal s) : ResponsesLegal (s.doutPush d) := by
  intro w hw
  rw [State.output, State.doutPush_offer, ← List.append_assoc, responsesOf_append, responsesOf_digest, List.append_nil] at hw
  exact h w hw

/-- A command answers with an error, with success, or with the length of a digest; before that it gives no output (R100). -/
theorem exec_keeps_responsesLegal {i : Instr} {s t : State} (hs : ResponsesLegal s) (h : exec i s = .next t) :
    ResponsesLegal t := by
  have hok : okResponse ∈ legalResponses := List.mem_cons_self
  cases i with
  | init size =>
    rcases execInit_cases h with ⟨-, rfl⟩ | ⟨v, -, rfl⟩
    · exact rspPush_responsesLegal (errorResponse_legal _) hs
    · exact rspPush_responsesLegal hok hs
  | update len =>
    rcases execUpdate_cases h with ⟨-, rfl⟩ | ⟨-, -, rfl⟩ | ⟨v, -, -, -, rfl⟩
    · exact hs
    · exact rspPush_responsesLegal (errorResponse_legal _) hs
    · exact rspPush_responsesLegal hok hs
  | final =>
    rcases execFinal_cases h with ⟨-, rfl⟩ | ⟨v, -, -, rfl⟩
    · exact rspPush_responsesLegal (errorResponse_legal _) hs
    · exact doutPush_responsesLegal _ (rspPush_responsesLegal (digestResponse_legal v) hs)

theorem execWord_keeps_responsesLegal {cw : BitVec 32} {s t : State} (hs : ResponsesLegal s) (h : execWord cw s = .next t) :
    ResponsesLegal t := by
  rcases execWord_cases cw s with ⟨e, -, he⟩ | ⟨i, -, hi⟩
  · rw [he] at h
    cases h
    exact rspPush_responsesLegal (errorResponse_legal _) hs
  · exact exec_keeps_responsesLegal hs (hi ▸ h)

theorem drain_responsesLegal {s : State} (h : ResponsesLegal s) : ResponsesLegal s.drain :=
  by
  rwa [ResponsesLegal, output_drain]

theorem hardReset_responsesLegal {s : State} (h : ResponsesLegal s) : ResponsesLegal s.hardReset := by
  refine responsesLegal_of_subset ?_ h
  rw [State.output, State.hardReset_taken, State.hardReset_offer, List.append_nil]
  exact List.append_subset.mpr ⟨List.subset_append_left _ _, List.Subset.trans (List.take_subset _ _) (List.subset_append_right _ _)⟩

/-- Settles O21: a reset and the host only take output away, and every command answers with a word of R86. -/
theorem stepKeepsResponsesLegal : Obligations.StepKeepsResponsesLegal := by
  intro s t hs h
  rcases step_next_cases h with ⟨-, rfl⟩ | rfl | ⟨len, -, hx⟩ | ⟨cw, -, -, hx⟩
  · exact hardReset_responsesLegal hs
  · exact drain_responsesLegal hs
  · exact exec_keeps_responsesLegal (drain_responsesLegal hs) hx
  · exact execWord_keeps_responsesLegal (s := s.drain.withCmd t.cmd) (drain_responsesLegal hs) hx

end Sys2Proof.Machine
end

/-! ## Pseudo-instructions (30_encoding.md section 6): `HASH` and `RESTART` -/

section
namespace Sys2Proof.Machine

theorem splitPayload_of_le {n : Nat} (k : Nat) {b : List Byte} (h : b.length ≤ n) : splitPayload n k b = [b] := by
  cases k with
  | zero => rfl
  | succ k => rw [splitPayload, if_pos h]

/-- The pieces of a payload, in order, are the payload. -/
theorem flatten_splitPayload (n k : Nat) (b : List Byte) : (splitPayload n k b).flatten = b := by
  induction k generalizing b with
  | zero => simp [splitPayload]
  | succ k ih =>
    rw [splitPayload]
    split
    · simp
    · rw [List.flatten_cons, ih, List.take_append_drop]

/-- Enough cuts leave no piece longer than `n` bytes. -/
theorem length_le_of_mem_splitPayload {n k : Nat} {b p : List Byte} (hb : b.length ≤ (k + 1) * n) (hp : p ∈ splitPayload n k b) :
    p.length ≤ n := by
  induction k generalizing b with
  | zero =>
    obtain rfl := List.mem_singleton.mp hp
    omega
  | succ k ih =>
    rw [splitPayload] at hp
    split at hp
    · obtain rfl := List.mem_singleton.mp hp
      assumption
    · rcases List.mem_cons.mp hp with rfl | hp
      · exact List.length_take_le n b
      · refine ih ?_ hp
        rw [List.length_drop]
        rw [Nat.succ_mul] at hb
        omega

/-- The transaction of a size given in decimal is that of the `INIT` with that operand (R90). -/
theorem initTransaction_toNat (size : BitVec 10) : initTransaction size.toNat = transactionOf ⟨.init size, []⟩ := by
  rw [initTransaction, BitVec.ofNat_toNat, BitVec.setWidth_eq]

/-- `HASH` with the size of a variant is the session of its pieces (R91). -/
theorem assemble_hash (v : Variant) (b : List Byte) (var : BitVec 10) :
    assemble var (.hash v.size.toNat b) = some (hashSession v (splitPayload maxPayload b.length b)) := by
  rw [assemble, if_pos v.size.isLt, hashTransactions, initTransaction_toNat, hashSession]

/-- Settles O55: the pieces are those of `splitPayload`, which may make as many cuts as there are bytes. -/
theorem hashPseudoInstructionIsASession : Obligations.HashPseudoInstructionIsASession := by
  intro v b var
  refine ⟨splitPayload maxPayload b.length b, assemble_hash v b var, flatten_splitPayload .., fun p hp => ?_,
    splitPayload_of_le b.length⟩
  refine length_le_of_mem_splitPayload ?_ hp
  rw [maxPayload]
  omega

/-- Settles O56: the word `RESTART` sends is the encoding of `INIT` with the size in `var`, which starts a hash. -/
theorem restartReinitialisesTheSameVariant : Obligations.RestartReinitialisesTheSameVariant := by
  intro s
  refine ⟨transactionOf ⟨.init s.var, []⟩, ?_, rfl, rfl, fun v hv => ?_⟩
  · rw [assemble, initTransaction_toNat]
  · refine ⟨respondOk (s.withRegs (startHash v s.toRegs)), ?_, rfl, hv.symm, chain_startHash v _, counter_startHash v _, rfl, rfl,
      rfl, rfl, rfl, rfl, rfl, rfl, rfl, rfl, rfl⟩
    rw [hv]
    exact (execWord_encode _ s).trans (execInit_of_size v s)

end Sys2Proof.Machine
end

/-! ## The hash engine (40_hash_engine.md): life and death, and the three commands on a live engine -/

section
namespace Sys2Proof.Machine

theorem Alike.of_fault {f : Fault} {o : Host.Outcome State Fault Refusal} (h : Alike (.fault f) o) : o = .fault f := by
  cases h with
  | fault => rfl

/-- Settles O22: the two outcomes of `step_alike`, read from the first one. -/
theorem indistinguishableStatesStepAlike : Obligations.IndistinguishableStatesStepAlike := by
  intro s t h
  have halike := step_alike h
  exact ⟨fun s' hs => (hs ▸ halike).of_next, fun f hf => (hf ▸ halike).of_fault⟩

/-- Settles O5: the word taken is executed, and it decodes to the command. -/
theorem stepExecutesDecodedCommand : Obligations.StepExecutesDecodedCommand := by
  intro s cw rest i hr hw ho hc hd
  rw [step_of_command hr hw ho hc, decode_eq_ok_iff.mp hd, execWord_encode]

/-- No command touches what belongs to the host. -/
theorem exec_sameHost {i : Instr} {s t : State} (h : exec i s = .next t) : SameHost s t := by
  obtain ⟨hcmd, hrsp, hdout, hrst, htaken, hresets, -⟩ := exec_frame h
  exact ⟨hcmd, hrsp, hdout, hrst, htaken, hresets⟩

/-! ### Life and death (R106) -/

/-- What a command does to `fin`: nothing, unless it is an `INIT` of a legal size or a `FINAL`. -/
theorem exec_fin_cases {i : Instr} {s t : State} (h : exec i s = .next t) :
    t.fin = s.fin ∨ (∃ v : Variant, i = .init v.size ∧ t.fin = false) ∨ (i = .final ∧ t.fin = true) := by
  rcases exec_regs_cases h with hk | ⟨v, hi, ht⟩ | ⟨v, len, -, -, -, ht⟩ | ⟨v, hi, -, -, ht⟩
  · exact .inl (congrArg Regs.fin hk)
  · exact .inr (.inl ⟨v, hi, by rw [ht, startHash_fin]⟩)
  · exact .inl (by rw [ht, absorbAll_fin])
  · exact .inr (.inr ⟨hi, by rw [ht, Regs.makeDead_fin]⟩)

/-- What a step does to `fin`: nothing, unless it is a reset or takes the word of an `INIT` of a legal size or of a `FINAL`. -/
theorem step_fin_cases {s t : State} (h : step s = .next t) :
    t.fin = s.fin ∨ (s.rst = true ∧ t.fin = true) ∨
    (s.rst = false ∧ s.waiting = none ∧ ∃ cw, s.cmd = cw :: t.cmd ∧
      ((∃ v : Variant, decode cw = .ok (.init v.size) ∧ t.fin = false) ∨ (decode cw = .ok .final ∧ t.fin = true))) := by
  rcases step_next_cases h with ⟨hr, rfl⟩ | rfl | ⟨len, -, hx⟩ | ⟨cw, hready, hc, hx⟩
  · exact .inr (.inl ⟨hr, State.hardReset_fin s⟩)
  · exact .inl rfl
  · rcases exec_fin_cases hx with hk | ⟨v, hi, -⟩ | ⟨hi, -⟩
    · exact .inl hk
    · cases hi
    · cases hi
  · obtain ⟨hr, hw, -⟩ := cmdReady_eq_true.mp hready
    rcases execWord_cases cw (s.drain.withCmd t.cmd) with ⟨e, -, he⟩ | ⟨i, hd, hi⟩
    · rw [he] at hx
      exact .inl (congrArg (·.fin) (Host.Outcome.next.inj hx)).symm
    · rcases exec_fin_cases (hi ▸ hx) with hk | ⟨v, rfl, ht⟩ | ⟨rfl, ht⟩
      · exact .inl hk
      · exact .inr (.inr ⟨hr, hw, cw, hc, .inl ⟨v, hd, ht⟩⟩)
      · exact .inr (.inr ⟨hr, hw, cw, hc, .inr ⟨hd, ht⟩⟩)

/-- Settles O24: the one step that takes `fin` from 1 to 0. -/
theorem onlyLegalInitRevives : Obligations.OnlyLegalInitRevives := by
  intro s t hdead h hlive
  rcases step_fin_cases h with hk | ⟨-, ht⟩ | ⟨hr, hw, cw, hc, ⟨v, hd, -⟩ | ⟨-, ht⟩⟩
  · exact absurd (hlive.symm.trans (hk.trans hdead)) Bool.noConfusion
  · exact absurd (hlive.symm.trans ht) Bool.noConfusion
  · exact ⟨hr, hw, v, cw, hc, hd⟩
  · exact absurd (hlive.symm.trans ht) Bool.noConfusion

/-- Settles O25: the two steps that take `fin` from 0 to 1. -/
theorem onlyFinalOrResetKills : Obligations.OnlyFinalOrResetKills := by
  intro s t hlive h hdead
  rcases step_fin_cases h with hk | ⟨hr, -⟩ | ⟨-, hw, cw, hc, ⟨v, -, ht⟩ | ⟨hd, -⟩⟩
  · exact absurd (hlive.symm.trans (hk.symm.trans hdead)) Bool.noConfusion
  · exact .inl hr
  · exact absurd (ht.symm.trans hdead) Bool.noConfusion
  · exact .inr ⟨hw, cw, hc, hd⟩

/-! ### `INIT` (R101, R192) -/

/-- A number that is none of the four sizes names no variant (R82, R192). -/
theorem variantOf_of_not_size {size : BitVec 10} (h : size.toNat ∉ [224, 256, 384, 512]) : variantOf size = none :=
  variantOf_eq_none.mpr fun v hv => h (hv ▸ Variant_size_toNat_mem v)

/-- Settles O27: the registers of a hash just started, or the error entry. -/
theorem initStartsANewHashOrFails : Obligations.InitStartsANewHashOrFails := by
  refine ⟨fun v s => ?_, fun size s h224 h256 h384 h512 => ?_⟩
  · have hx : exec (.init v.size) s = _ := execInit_of_size v s
    exact ⟨_, hx, startHash_fin v _, startHash_var v _, chain_startHash v _, counter_startHash v _, startHash_buflen v _,
      startHash_BUF v _, rfl, rfl, rfl, exec_sameHost hx⟩
  · have hx : exec (.init size) s = _ := execInit_of_none (variantOf_of_not_size (by simp [h224, h256, h384, h512])) s
    exact ⟨_, hx, rfl, rfl, rfl, rfl, exec_sameHost hx⟩

/-- Settles O28: of two hashes of one variant just started nothing that can be read differs. -/
theorem initForgetsTheOldHash : Obligations.InitForgetsTheOldHash := by
  rintro v s t s' t' ⟨⟨hcmd, hrsp, hdout, hrst, htaken, hresets⟩, hwait, hdin, hoffer⟩ hs ht
  cases (execInit_of_size v s).symm.trans hs
  cases (execInit_of_size v t).symm.trans ht
  exact ⟨startHash_sameReadable v _ _, ⟨hcmd, hrsp, hdout, hrst, htaken, hresets⟩, hwait, hdin,
    congrArg (· ++ [OutEvent.rsp okResponse]) hoffer⟩

/-! ### `UPDATE` (R102 to R104, R107) -/

theorem Regs.LiveAs.liveVariant {v : Variant} {r : Regs} (h : r.LiveAs v) : r.liveVariant = .ok v := by
  obtain ⟨-, hvar, hbuf, -⟩ := h
  exact liveVariant_eq_ok.mpr ⟨hvar, hbuf⟩

/-- The state a live engine of variant `v` is in after an `UPDATE` with its payload there (R102). -/
def afterUpdate (v : Variant) (len : BitVec 28) (s : State) : State :=
  respondOk ((s.afterPayload len.toNat).withRegs (absorbAll v.params (s.din.take len.toNat) s.toRegs))

theorem exec_update_of_liveAs {v : Variant} {len : BitVec 28} {s : State} (h : s.toRegs.LiveAs v)
    (hlen : len.toNat ≤ s.din.length) : exec (.update len) s = .next (afterUpdate v len s) :=
  execUpdate_of_live h.1 h.liveVariant hlen

@[simp] theorem afterUpdate_toRegs (v : Variant) (len : BitVec 28) (s : State) :
    (afterUpdate v len s).toRegs = absorbAll v.params (s.din.take len.toNat) s.toRegs := rfl
@[simp] theorem afterUpdate_din (v : Variant) (len : BitVec 28) (s : State) :
    (afterUpdate v len s).din = s.din.drop len.toNat := rfl
@[simp] theorem afterUpdate_waiting (v : Variant) (len : BitVec 28) (s : State) : (afterUpdate v len s).waiting = none := rfl
@[simp] theorem afterUpdate_offer (v : Variant) (len : BitVec 28) (s : State) :
    (afterUpdate v len s).offer = s.offer ++ [.rsp okResponse] := rfl

theorem afterUpdate_zero_toRegs (v : Variant) (s : State) : (afterUpdate v 0 s).toRegs = s.toRegs := rfl

/-- Settles O32: no byte is absorbed. -/
theorem updateZeroIsANoOp : Obligations.UpdateZeroIsANoOp := by
  intro v s h
  have hx := exec_update_of_liveAs (len := 0) h (Nat.zero_le _)
  exact ⟨_, hx, afterUpdate_zero_toRegs v s, rfl, rfl, exec_sameHost hx⟩

theorem compressBlock_eq_compress (v : Variant) (h : Chain v.W) (B : List Byte) (t : BitVec (2 * v.W)) (final : Bool) :
    compressBlock v.params h B t final =
      compress v.params h B (t.extractLsb' 0 v.W) (t.extractLsb' v.W v.W) final #v[0, 0, 0, 0] := by
  rw [compressBlock, Variant_salt]

/-- Settles O31: the byte is stored below a full buffer, or fills it. -/
theorem absorbStoresAByteAndCompressesAFullBuffer : Obligations.AbsorbStoresAByteAndCompressesAFullBuffer := by
  rintro v r b ⟨-, -, hbuf, -⟩
  have h128 : r.buflen.toNat < 128 := Nat.lt_of_lt_of_le hbuf (Variant_blockBytes_le v)
  refine ⟨absorb_BUF _ r b, absorb_var _ r b, absorb_fin _ r b, fun hl => ?_, fun t he ht => ?_⟩
  · rw [absorb_of_lt b hl]
    exact ⟨buflen_succ h128, tail_storeByte b r h128, rfl, rfl⟩
  · have hctr : r.counter v.W + BitVec.ofNat (2 * v.W) (blockBytes v.W) =
        BitVec.ofNat (2 * v.W) ((r.counter v.W).toNat + blockBytes v.W) := by
      rw [BitVec.ofNat_add, BitVec.ofNat_toNat, BitVec.setWidth_eq]
    rw [absorb_of_eq b he, counter_compressBuffer, chain_compressBuffer, counter_storeByte, chain_storeByte,
      block_storeByte b he, hctr, bitCount_ofNat, ← ht, compressBlock_eq_compress]
    exact ⟨BitVec.toNat_ofNat _ _, rfl, rfl⟩

/-- Where no block is full the document's loop does not turn. -/
theorem docDrain_of_lt {W : Nat} (p : Params W) (k : Nat) (h : Chain W) (c : BitVec (2 * W)) {buf : List Byte}
    (hbuf : buf.length < blockBytes W) : docDrain p k h c buf = (h, c, buf) := by
  cases k with
  | zero => rfl
  | succ k => rw [docDrain, if_neg (Nat.not_le.mpr hbuf)]

/-- One turn of the document's loop takes the full block at the front of the buffer. -/
theorem docDrain_block_append {W : Nat} (p : Params W) (k : Nat) (h : Chain W) (c : BitVec (2 * W)) {B : List Byte}
    (buf : List Byte) (hB : B.length = blockBytes W) : docDrain p (k + 1) h c (B ++ buf) =
      docDrain p k (compressBlock p h B (bitCount p (c + BitVec.ofNat (2 * W) (blockBytes W))) false)
        (c + BitVec.ofNat (2 * W) (blockBytes W)) buf := by
  have hle : blockBytes W ≤ (B ++ buf).length := by
    rw [List.length_append]
    omega
  rw [docDrain, if_pos hle, List.take_left' hB, List.drop_left' hB]

/-- Byte by byte or all at once (R104): a byte that does not fill the buffer passes from the payload to the buffered bytes, and one
that does is the last byte of the block the document's loop takes. -/
theorem docDrain_eq_absorbAll {v : Variant} (l : List Byte) {k : Nat} {r : Regs} (hk : l.length ≤ k)
    (hbuf : r.buflen.toNat < blockBytes v.W) :
    docDrain v.params k (r.chain v.W) (r.counter v.W) (r.tail ++ l) =
      ((absorbAll v.params l r).chain v.W, (absorbAll v.params l r).counter v.W, (absorbAll v.params l r).tail) := by
  induction l generalizing k r with
  | nil =>
    have h128 : r.buflen.toNat ≤ 128 := Nat.le_trans (Nat.le_of_lt hbuf) (Variant_blockBytes_le v)
    rw [List.append_nil, docDrain_of_lt _ _ _ _ (tail_length r h128 ▸ hbuf), absorbAll_nil]
  | cons b l ih =>
    have h128 : r.buflen.toNat < 128 := Nat.lt_of_lt_of_le hbuf (Variant_blockBytes_le v)
    have hbuf' : (absorb v.params r b).buflen.toNat < blockBytes v.W :=
      absorb_buflen b hbuf ▸ Nat.mod_lt _ (Variant_blockBytes_pos v)
    rw [absorbAll_cons, List.append_cons]
    rcases Nat.lt_or_eq_of_le hbuf with hl | he
    · rw [← ih (Nat.le_of_succ_le hk) hbuf', absorb_of_lt b hl, chain_storeByte, counter_storeByte, tail_storeByte b r h128]
    · obtain ⟨k, rfl⟩ := Nat.exists_eq_add_one_of_ne_zero (Nat.ne_of_gt (Nat.zero_lt_of_lt hk))
      have hB : (r.tail ++ [b]).length = blockBytes v.W := by
        rw [List.length_append, tail_length r (Nat.le_of_lt h128), ← he]
        rfl
      rw [← ih (Nat.le_of_succ_le_succ hk) hbuf', docDrain_block_append _ _ _ _ _ hB, absorb_of_eq b he,
        chain_compressBuffer, counter_compressBuffer, tail_compressBuffer, chain_storeByte, counter_storeByte,
        block_storeByte b he, List.nil_append]

/-- Settles O29: the loop's bound is the number of buffered bytes, and one turn for each payload byte is enough. -/
theorem updateRefinesTheDocumentsUpdate : Obligations.UpdateRefinesTheDocumentsUpdate := by
  intro v len s h hlen
  have hx := exec_update_of_liveAs h hlen
  obtain ⟨hfin, -, hbuf', -⟩ := absorbAll_liveAs (s.din.take len.toNat) h
  obtain ⟨-, -, hbuf, -⟩ := h
  have hturns : (s.din.take len.toNat).length ≤ (s.tail ++ s.din.take len.toNat).length := by
    rw [List.length_append]
    exact Nat.le_add_left _ _
  exact ⟨_, hx, (docDrain_eq_absorbAll _ hturns hbuf).symm,
    (tail_length _ (Nat.le_trans (Nat.le_of_lt hbuf') (Variant_blockBytes_le v))).symm, hfin, absorbAll_var _ _ _, rfl, rfl, rfl,
    exec_sameHost hx⟩

/-! ### `FINAL` (R105, R109) -/

/-- What a successful `FINAL` sends: the response word with the digest's length, then the digest (R105). -/
def finalAnswer (v : Variant) (r : Regs) : List OutEvent :=
  .rsp (BitVec.ofNat 16 (256 * (v.size.toNat / 8))) :: (finalize v.params r).2.map .dout

/-- The state a live engine of variant `v` is in after a `FINAL` (R105). -/
def afterFinal (v : Variant) (s : State) : State :=
  respondDigest (finalize v.params s.toRegs).2 v.params.digestBytes (s.withRegs (finalize v.params s.toRegs).1.makeDead)

theorem exec_final_of_liveAs {v : Variant} {s : State} (h : s.toRegs.LiveAs v) : exec .final s = .next (afterFinal v s) :=
  execFinal_of_live h.1 h.liveVariant

theorem digestResponse_eq (v : Variant) :
    digestResponse v.params.digestBytes = BitVec.ofNat 16 (256 * (v.size.toNat / 8)) := by cases v <;> rfl

@[simp] theorem afterFinal_toRegs (v : Variant) (s : State) :
    (afterFinal v s).toRegs = (finalize v.params s.toRegs).1.makeDead := rfl
@[simp] theorem afterFinal_offer (v : Variant) (s : State) : (afterFinal v s).offer = s.offer ++ finalAnswer v s.toRegs := by
  rw [afterFinal, respondDigest_offer, digestResponse_eq, List.append_assoc]
  rfl

/-- Settles O36: the chaining value and the digest are those of the padding controller. -/
theorem finalReturnsTheDigest : Obligations.FinalReturnsTheDigest := by
  intro v s h
  have hx := exec_final_of_liveAs h
  exact ⟨_, hx, rfl, chain_finalize v s.toRegs, rfl, rfl, rfl, rfl, afterFinal_offer v s, rfl, rfl, exec_sameHost hx⟩

/-- Settles O37: a digest has `N` bytes, and `var` holds the size of the variant. -/
theorem digestLengthIsFixedByTheVariant : Obligations.DigestLengthIsFixedByTheVariant := by
  intro v s h
  have ⟨_, hvar, _, _⟩ := h
  have hdlen : (finalize v.params s.toRegs).2.length = v.size.toNat / 8 := by
    rw [finalize_digest, finalizeFrom_digest_length, Variant_digestBytes]
  refine ⟨_, _, _, exec_final_of_liveAs h, afterFinal_offer v s, ?_⟩
  rw [hdlen, hvar]
  cases v <;> decide

/-- Settles O35: absorbing the two payloads in turn is absorbing the joined one, and `FINAL` answers by the registers. -/
theorem chunkingIndependence : Obligations.ChunkingIndependence := by
  intro v la lb lab s h hsum hlen
  have hla : la.toNat ≤ s.din.length := by omega
  have hlb : lb.toNat ≤ (afterUpdate v la s).din.length := by
    rw [afterUpdate_din, List.length_drop]
    omega
  have ht : (afterUpdate v la s).toRegs.LiveAs v := absorbAll_liveAs _ h
  have hu : (afterUpdate v lb (afterUpdate v la s)).toRegs.LiveAs v := absorbAll_liveAs _ ht
  have hw : (afterUpdate v lab s).toRegs.LiveAs v := absorbAll_liveAs _ h
  have hregs : (afterUpdate v lb (afterUpdate v la s)).toRegs = (afterUpdate v lab s).toRegs := by
    simp only [afterUpdate_toRegs, afterUpdate_din]
    rw [← absorbAll_append, ← List.take_add, hsum]
  refine ⟨_, _, _, exec_update_of_liveAs h hla, exec_update_of_liveAs ht hlb, exec_update_of_liveAs h hlen, hregs, ?_, ?_, ?_,
    _, _, _, exec_final_of_liveAs hu, exec_final_of_liveAs hw, afterFinal_offer v _, ?_⟩
  · rw [afterUpdate_din, afterUpdate_din, afterUpdate_din, List.drop_drop, hsum]
  · rintro rfl
    exact afterUpdate_zero_toRegs v s
  · rintro rfl
    exact afterUpdate_zero_toRegs v _
  · rw [afterFinal_offer, hregs]

end Sys2Proof.Machine
end

/-! ## A whole hash (40_hash_engine.md R110): the session of `INIT`, `UPDATE`s and `FINAL` -/

section
namespace Sys2Proof.Machine

/-- An engine between commands with a host that takes its output and offers these command words and payload bytes. -/
def Offering (ws : List (BitVec 32)) (b : List Byte) (s : State) : Prop :=
  s.rst = false ∧ s.waiting = none ∧ s.cmd = ws ∧ s.din = b ∧ s.rspReady = true ∧ s.doutReady = true

theorem atRest_iff_offering {s : State} : AtRest s ↔ Offering [] [] s := Iff.rfl

theorem hostSend_offering {ws : List (BitVec 32)} {b : List Byte} {s : State} (x : Transaction) (h : Offering ws b s) :
    Offering (ws ++ [x.word]) (b ++ x.payload) (s.hostSend x) := by
  obtain ⟨hr, hw, hc, hd, hrsp, hdout⟩ := h
  exact ⟨hr, hw, congrArg (· ++ [x.word]) hc, congrArg (· ++ x.payload) hd, hrsp, hdout⟩

/-- What the host sends stands behind what it offered before, words and bytes each in order (R54). -/
theorem hostSendAll_offering {ws : List (BitVec 32)} {b : List Byte} {s : State} (xs : List Transaction) (h : Offering ws b s) :
    Offering (ws ++ xs.map Transaction.word) (b ++ xs.flatMap Transaction.payload) (s.hostSendAll xs) := by
  induction xs generalizing ws b s with
  | nil => simpa [State.hostSendAll] using h
  | cons x xs ih => simpa [State.hostSendAll] using ih (hostSend_offering x h)

theorem output_hostSendAll (xs : List Transaction) (s : State) : (s.hostSendAll xs).output = s.output := by
  induction xs generalizing s with
  | nil => rfl
  | cons x xs ih => exact ih (s.hostSend x)

/-- An engine that is offered a command executes it, all earlier output taken. -/
theorem step_of_offering {i : Instr} {ws : List (BitVec 32)} {b : List Byte} {s : State} (h : Offering (encode i :: ws) b s) :
    ∃ u, step s = exec i u ∧ Offering ws b u ∧ u.toRegs = s.toRegs ∧ u.output = s.output := by
  obtain ⟨hr, hw, hc, hd, hrsp, hdout⟩ := h
  refine ⟨s.drain.withCmd ws, ?_, ⟨hr, hw, rfl, hd, hrsp, hdout⟩, rfl, output_drain s⟩
  rw [step_of_command hr hw (drain_offer_of_ready hrsp hdout) hc, execWord_encode]

theorem output_of_answer {s t : State} {l : List OutEvent} (htaken : t.taken = s.taken) (hoffer : t.offer = s.offer ++ l) :
    t.output = s.output ++ l := by
  rw [State.output, State.output, htaken, hoffer, List.append_assoc]

theorem step_init_of_offering (v : Variant) {ws : List (BitVec 32)} {b : List Byte} {s : State}
    (h : Offering (encode (.init v.size) :: ws) b s) :
    ∃ t, step s = .next t ∧ Offering ws b t ∧ Absorbed v [] t.toRegs ∧ t.output = s.output ++ [.rsp 0x0000] := by
  obtain ⟨u, hu, hoff, -, hout⟩ := step_of_offering h
  exact ⟨_, hu.trans (execInit_of_size v u), hoff, startHash_absorbed v _, hout ▸ output_rspPush _ _⟩

/-- The command of an `UPDATE` transaction has the length of its payload as operand: it fits (R83). -/
theorem toNat_payloadLength {p : List Byte} (hp : p.length ≤ maxPayload) : (BitVec.ofNat 28 p.length).toNat = p.length := by
  rw [maxPayload] at hp
  rw [BitVec.toNat_ofNat, Nat.mod_eq_of_lt (by omega)]

theorem step_update_of_offering {v : Variant} {M p : List Byte} {ws : List (BitVec 32)} {b : List Byte} {s : State}
    (h : Offering ((updateTransaction p).word :: ws) (p ++ b) s) (hM : Absorbed v M s.toRegs) (hp : p.length ≤ maxPayload) :
    ∃ t, step s = .next t ∧ Offering ws b t ∧ Absorbed v (M ++ p) t.toRegs ∧ t.output = s.output ++ [.rsp 0x0000] := by
  obtain ⟨u, hu, ⟨hr, hw, hc, hd, hrsp, hdout⟩, hregs, hout⟩ :=
    step_of_offering (i := .update (BitVec.ofNat 28 p.length)) h
  have hn := toNat_payloadLength hp
  have hlen : (BitVec.ofNat 28 p.length).toNat ≤ u.din.length := by
    rw [hn, hd, List.length_append]
    omega
  rw [← hregs] at hM
  refine ⟨_, hu.trans (exec_update_of_liveAs hM.1 hlen), ⟨hr, rfl, hc, ?_, hrsp, hdout⟩, ?_, ?_⟩
  · rw [afterUpdate_din, hn, hd, List.drop_left]
  · rw [afterUpdate_toRegs, hn, hd, List.take_left]
    exact absorbAll_absorbed p hM
  · rw [← hout]
    exact output_of_answer rfl (afterUpdate_offer ..)

/-- The `UPDATE`s of a session, one step each: the engine has then absorbed the pieces in order. -/
theorem runSteps_updates_of_offering {v : Variant} (pieces : List (List Byte)) {M : List Byte} {ws : List (BitVec 32)}
    {b : List Byte} {s : State} (h : Offering (pieces.map (fun p => (updateTransaction p).word) ++ ws) (pieces.flatten ++ b) s)
    (hM : Absorbed v M s.toRegs) (hp : ∀ p ∈ pieces, p.length ≤ maxPayload) :
    ∃ t, runSteps pieces.length s = .next t ∧ Offering ws b t ∧ Absorbed v (M ++ pieces.flatten) t.toRegs ∧
      t.output = s.output ++ List.replicate pieces.length (.rsp 0x0000) := by
  induction pieces generalizing M s with
  | nil => exact ⟨s, rfl, h, by simpa using hM, by simp⟩
  | cons p pieces ih =>
    rw [List.flatten_cons, List.append_assoc] at h
    obtain ⟨u, hu, hoff, hMu, hout⟩ := step_update_of_offering h hM (hp p List.mem_cons_self)
    obtain ⟨t, ht, hoff', hMt, hout'⟩ := ih hoff hMu fun q hq => hp q (List.mem_cons_of_mem p hq)
    refine ⟨t, (runSteps_succ_of_next hu).trans ht, hoff', ?_, ?_⟩
    · rwa [List.flatten_cons, ← List.append_assoc]
    · rw [hout', hout, List.append_assoc]
      rfl

/-- The digest of an engine that has absorbed `M` is `Hash(v, M)` (R110). -/
theorem finalize_digest_of_absorbed {v : Variant} {M : List Byte} {r : Regs} (h : Absorbed v M r) :
    (finalize v.params r).2 = hashOf v M := by
  obtain ⟨-, hctr, -, htail, hchain⟩ := h
  rw [finalize_digest, hctr, htail, hchain, hashOf]

theorem step_final_of_offering {v : Variant} {M : List Byte} {ws : List (BitVec 32)} {b : List Byte} {s : State}
    (h : Offering (encode .final :: ws) b s) (hM : Absorbed v M s.toRegs) :
    ∃ t, step s = .next t ∧ Offering ws b t ∧ t.fin = true ∧
      t.output = s.output ++ .rsp (BitVec.ofNat 16 (256 * (v.size.toNat / 8))) :: (hashOf v M).map .dout := by
  obtain ⟨u, hu, hoff, hregs, hout⟩ := step_of_offering h
  rw [← hregs] at hM
  refine ⟨_, hu.trans (exec_final_of_liveAs hM.1), hoff, rfl, ?_⟩
  rw [← hout, ← finalize_digest_of_absorbed hM]
  exact output_of_answer rfl (afterFinal_offer v u)

/-- What the host offers in a session: the words of `INIT`, the `UPDATE`s and `FINAL`, and the pieces as one byte string. -/
theorem hashSession_offering (v : Variant) (pieces : List (List Byte)) {s : State} (h : AtRest s) :
    Offering (encode (.init v.size) :: (pieces.map (fun p => (updateTransaction p).word) ++ [encode .final]))
      (pieces.flatten ++ []) (s.hostSendAll (hashSession v pieces)) := by
  have hsent := hostSendAll_offering (hashSession v pieces) (atRest_iff_offering.mp h)
  simpa [hashSession, finalTransaction, transactionOf, updateTransaction, Function.comp_def, List.flatMap_map,
    List.flatMap_id'] using hsent

/-- A session runs through, one step a command, and answers with the hash of the message (R110). -/
theorem runSteps_hashSession (v : Variant) (pieces : List (List Byte)) {s : State} (h : AtRest s)
    (hp : ∀ p ∈ pieces, p.length ≤ maxPayload) :
    ∃ t, runSteps (pieces.length + 2) (s.hostSendAll (hashSession v pieces)) = .next t ∧
      t.output = s.output ++ List.replicate (pieces.length + 1) (.rsp 0x0000) ++
        .rsp (BitVec.ofNat 16 (256 * (v.size.toNat / 8))) :: (hashOf v pieces.flatten).map .dout ∧
      t.fin = true ∧ t.cmd = [] ∧ t.din = [] := by
  obtain ⟨x, hx, hoffx, hMx, houtx⟩ := step_init_of_offering v (hashSession_offering v pieces h)
  obtain ⟨y, hy, hoffy, hMy, houty⟩ := runSteps_updates_of_offering pieces hoffx hMx hp
  obtain ⟨t, ht, ⟨-, -, hcmd, hdin, -, -⟩, hfin, hout⟩ := step_final_of_offering hoffy hMy
  refine ⟨t, ?_, ?_, hfin, hcmd, hdin⟩
  · rw [runSteps_succ_of_next hx, runSteps_add hy, runSteps_succ_of_next ht, runSteps]
  · rw [hout, houty, houtx, output_hostSendAll, List.nil_append, List.replicate_succ, List.append_assoc s.output]
    rfl

@[simp] theorem digestBytesOf_append (a b : List OutEvent) : digestBytesOf (a ++ b) = digestBytesOf a ++ digestBytesOf b :=
  List.filterMap_append

@[simp] theorem digestBytesOf_rsp_cons (w : BitVec 16) (l : List OutEvent) : digestBytesOf (.rsp w :: l) = digestBytesOf l := rfl

@[simp] theorem digestBytesOf_digest (d : List Byte) : digestBytesOf (d.map .dout) = d := by
  simp [digestBytesOf, List.filterMap_map]

theorem digestBytesOf_responses (n : Nat) (w : BitVec 16) : digestBytesOf (List.replicate n (.rsp w)) = [] := by
  induction n with
  | zero => rfl
  | succ n ih => rw [List.replicate_succ, digestBytesOf_rsp_cons, ih]

/-- Settles O54: the session's three kinds of step in order, and `HASH` is the session of the pieces of its payload. -/
theorem sessionReturnsTheHashOfTheMessage : Obligations.SessionReturnsTheHashOfTheMessage := by
  refine ⟨fun v pieces s h hp => runSteps_hashSession v pieces h hp, fun v M s h => ?_⟩
  obtain ⟨pieces, hasm, rfl, hp, -⟩ := hashPseudoInstructionIsASession v M s.var
  obtain ⟨t, hrun, hout, -⟩ := runSteps_hashSession v pieces h hp
  refine ⟨_, _, t, _, hasm, hrun, hout.trans (List.append_assoc ..), ?_⟩
  rw [digestBytesOf_append, digestBytesOf_responses, List.nil_append, digestBytesOf_rsp_cons, digestBytesOf_digest]

end Sys2Proof.Machine
end

/-! ## Padding (41_padding_finalizer.md): what the finalizer compresses in each branch -/

section
namespace Sys2Proof.Machine

theorem Variant_one_lt_padLimit (v : Variant) : 1 < padLimit v.W := by cases v <;> decide

/-- The finalizer's length `L` as the number R131 writes. -/
theorem totalBits_eq_ofNat {W : Nat} (c : BitVec (2 * W)) (n : Nat) :
    totalBits c n = BitVec.ofNat (2 * W) (8 * (c.toNat + n)) := by
  rw [totalBits, BitVec.ofNat_mul, BitVec.ofNat_add, BitVec.ofNat_toNat, BitVec.setWidth_eq]

/-! ### The two branches (R133) -/

theorem overflows_of_fits {W : Nat} {tail : List Byte} (h : tail.length + 1 ≤ padLimit W) : overflows W tail = false :=
  decide_eq_false (Nat.not_lt.mpr h)

theorem overflows_of_le {W : Nat} {tail : List Byte} (h : padLimit W ≤ tail.length) : overflows W tail = true :=
  decide_eq_true (Nat.lt_succ_of_le h)

theorem lastPrefix_of_fits {W : Nat} {tail : List Byte} (h : tail.length + 1 ≤ padLimit W) :
    lastPrefix W tail = withMarker tail ++ zeros (padLimit W - (tail.length + 1)) := by
  rw [lastPrefix, overflows_of_fits h, if_neg Bool.false_ne_true]

theorem lastPrefix_of_overflow {W : Nat} {tail : List Byte} (h : padLimit W ≤ tail.length) :
    lastPrefix W tail = zeros (padLimit W) := by
  rw [lastPrefix, overflows_of_le h, if_pos rfl]

theorem chainBeforeLast_of_fits {W : Nat} (p : Params W) (h : Chain W) {tail : List Byte} (L : BitVec (2 * W))
    (ht : tail.length + 1 ≤ padLimit W) : chainBeforeLast p h tail L = h := by
  rw [chainBeforeLast, overflows_of_fits ht, if_neg Bool.false_ne_true]

theorem chainBeforeLast_of_overflow {W : Nat} (p : Params W) (h : Chain W) {tail : List Byte} (L : BitVec (2 * W))
    (ht : padLimit W ≤ tail.length) : chainBeforeLast p h tail L = compressBlock p h (overflowBlock W tail) L false := by
  rw [chainBeforeLast, overflows_of_le ht, if_pos rfl]

/-- A last block that holds message bits is compressed with the length (R137 (a)). -/
theorem lastCounter_of_fits {W : Nat} {tail : List Byte} (L : BitVec (2 * W)) (hpos : 0 < tail.length)
    (ht : tail.length + 1 ≤ padLimit W) : lastCounter W tail L = L := by
  rw [lastCounter, overflows_of_fits ht, if_neg Bool.false_ne_true, if_pos hpos]

/-- A last block of padding alone is compressed with counter 0 (R137 (b)). -/
@[simp] theorem lastCounter_nil (W : Nat) (L : BitVec (2 * W)) : lastCounter W [] L = 0 := by
  simp [lastCounter]

/-- After an overflow block no message bit is left for the last block (R137 (d)). -/
theorem lastCounter_of_overflow {W : Nat} {tail : List Byte} (L : BitVec (2 * W)) (ht : padLimit W ≤ tail.length) :
    lastCounter W tail L = 0 := by
  rw [lastCounter, overflows_of_le ht, if_pos rfl]

/-! ### The last block (R133, R135, R136) -/

/-- `TB` goes into the last byte before the length field (R135). -/
theorem orLastPad_concat {W : Nat} (tb b : Byte) {P : List Byte} (h : P.length + 1 = padLimit W) :
    orLastPad W tb (P ++ [b]) = P ++ [b ||| tb] := by
  rw [orLastPad, ← h, Nat.add_sub_cancel]
  exact List.modifyTailIdx_add _ 0 P [b]

/-- Where a zero byte stands before the length field it becomes `TB`. -/
theorem orLastPad_append_zeros {W k : Nat} (tb : Byte) {P : List Byte} (h : P.length + k + 1 = padLimit W) :
    orLastPad W tb (P ++ zeros (k + 1)) = P ++ zeros k ++ [tb] := by
  have hlen : (P ++ zeros k).length + 1 = padLimit W := by rw [List.length_append, zeros_length, h]
  have hzeros : zeros (k + 1) = zeros k ++ [0#8] := List.replicate_succ'
  rw [hzeros, ← List.append_assoc, orLastPad_concat _ _ hlen, BitVec.zero_or]

theorem lastBlock_of_room {W : Nat} (p : Params W) {tail : List Byte} (L : BitVec (2 * W))
    (h : tail.length + 1 < padLimit W) : lastBlock p tail L =
      tail ++ [0x80#8] ++ zeros (padLimit W - tail.length - 2) ++ [p.tb] ++ beStore (lengthFieldBytes W) L := by
  have hzeros : padLimit W - (tail.length + 1) = padLimit W - tail.length - 2 + 1 := by omega
  have hlen : (tail ++ [0x80#8]).length + (padLimit W - tail.length - 2) + 1 = padLimit W := by
    rw [List.length_append, List.length_singleton]
    omega
  rw [lastBlock, lastPrefix_of_fits (Nat.le_of_lt h), withMarker, hzeros, orLastPad_append_zeros _ hlen]

/-- With no room for a zero byte it is the marker that takes `TB` (R141 (c)). -/
theorem lastBlock_of_just_fits {W : Nat} (p : Params W) {tail : List Byte} (L : BitVec (2 * W))
    (h : tail.length + 1 = padLimit W) :
    lastBlock p tail L = tail ++ [0x80#8 ||| p.tb] ++ beStore (lengthFieldBytes W) L := by
  have hzeros : zeros (padLimit W - (tail.length + 1)) = [] := by rw [h, Nat.sub_self]; rfl
  rw [lastBlock, lastPrefix_of_fits (Nat.le_of_eq h), hzeros, List.append_nil, withMarker, orLastPad_concat _ _ h]

theorem lastBlock_of_overflow {W : Nat} (p : Params W) {tail : List Byte} (L : BitVec (2 * W)) (hpos : 0 < padLimit W)
    (h : padLimit W ≤ tail.length) :
    lastBlock p tail L = zeros (padLimit W - 1) ++ [p.tb] ++ beStore (lengthFieldBytes W) L := by
  obtain ⟨k, hk⟩ := Nat.exists_eq_add_one.mpr hpos
  have hpad : orLastPad W p.tb (zeros (k + 1)) = zeros k ++ [p.tb] :=
    orLastPad_append_zeros (P := []) p.tb (by rw [hk, List.length_nil, Nat.zero_add])
  rw [lastBlock, lastPrefix_of_overflow h, hk, hpad, Nat.add_sub_cancel]

/-! ### What `Finalize` compresses (R139) -/

theorem compressBlock_zero_counter (v : Variant) (h : Chain v.W) (B : List Byte) (final : Bool) :
    compressBlock v.params h B 0 final = compress v.params h B 0 0 final #v[0, 0, 0, 0] := by
  simp only [compressBlock_eq_compress, BitVec.ofNat_eq_ofNat, BitVec.extractLsb'_zero]

theorem finalizeFrom_chain {W : Nat} (p : Params W) (h : Chain W) {c L : BitVec (2 * W)} {tail : List Byte}
    (hL : L = BitVec.ofNat (2 * W) (8 * (c.toNat + tail.length))) : (finalizeFrom p h c tail).1 =
      compressBlock p (chainBeforeLast p h tail L) (lastBlock p tail L) (lastCounter W tail L) true := by
  rw [hL, ← totalBits_eq_ofNat]
  rfl

/-- The single-block branch with a nonempty tail: one compression with counter `L` (R137 (a), R139). -/
theorem finalizeFrom_chain_of_fits (v : Variant) (h : Chain v.W) {c L : BitVec (2 * v.W)} {tail : List Byte}
    (hpos : 0 < tail.length) (ht : tail.length + 1 ≤ padLimit v.W)
    (hL : L = BitVec.ofNat (2 * v.W) (8 * (c.toNat + tail.length))) : (finalizeFrom v.params h c tail).1 =
      compress v.params h (lastBlock v.params tail L) (L.extractLsb' 0 v.W) (L.extractLsb' v.W v.W) true #v[0, 0, 0, 0] := by
  rw [finalizeFrom_chain v.params h hL, chainBeforeLast_of_fits _ _ _ ht, lastCounter_of_fits _ hpos ht,
    compressBlock_eq_compress]

/-- Settles O42: an empty tail leaves room for zero bytes, and its last block has counter 0. -/
theorem finalizeOfAnEmptyTail : Obligations.FinalizeOfAnEmptyTail := by
  intro v h c
  have hroom : ([] : List Byte).length + 1 < padLimit v.W := Variant_one_lt_padLimit v
  rw [finalizeFrom_chain (tail := []) v.params h rfl, chainBeforeLast_of_fits _ _ _ (Nat.le_of_lt hroom), lastCounter_nil,
    compressBlock_zero_counter, lastBlock_of_room _ _ hroom]
  rfl

/-- Settles O43: the block ends in zero bytes, the last of which is `TB`. -/
theorem finalizeOfAShortTail : Obligations.FinalizeOfAShortTail := by
  intro v h c L tail hpos hroom hL
  rw [finalizeFrom_chain_of_fits v h hpos (Nat.le_of_lt hroom) hL, lastBlock_of_room _ _ hroom, zeros]

/-- Settles O44: the marker itself is the last byte before the length field. -/
theorem finalizeOfATailThatJustFits : Obligations.FinalizeOfATailThatJustFits := by
  intro v h c L tail hfits hL
  have hpos : 0 < tail.length := by
    have := Variant_one_lt_padLimit v
    omega
  rw [finalizeFrom_chain_of_fits v h hpos (Nat.le_of_eq hfits) hL, lastBlock_of_just_fits _ _ hfits]

/-- Settles O45: the overflow block takes the marker and the counter `L`, the last block is padding alone. -/
theorem finalizeInTheOverflowBranch : Obligations.FinalizeInTheOverflowBranch := by
  intro v h c L tail hover _ hL
  have hpos : 0 < padLimit v.W := Nat.lt_of_succ_lt (Variant_one_lt_padLimit v)
  rw [finalizeFrom_chain v.params h hL, chainBeforeLast_of_overflow _ _ _ hover, lastCounter_of_overflow _ hover,
    compressBlock_zero_counter, compressBlock_eq_compress, lastBlock_of_overflow _ _ hpos hover, overflowBlock, withMarker,
    Nat.add_comm tail.length 1, ← Nat.sub_sub, zeros, zeros]

end Sys2Proof.Machine
end

/-! ## The compression core (42_compression_core.md): rotations, `G`, the schedule and the final flag -/

section
namespace Sys2Proof.Machine

/-! ### Rotation (R152) -/

theorem rotr_eq_rotateRight {W n : Nat} (x : Word W) (h : n < W) : rotr x n = x.rotateRight n := by
  rw [BitVec.rotateRight_def, Nat.mod_eq_of_lt h, rotr]

/-- Settles O49: bits below `W - n` come from the right shift, the others wrap around by the left shift. -/
theorem rotrMovesEachBit : Obligations.RotrMovesEachBit := by
  intro W n i x _ hn hi
  rw [rotr_eq_rotateRight x hn, BitVec.getLsbD_rotateRight, Nat.mod_eq_of_lt hn]
  by_cases hwrap : i < W - n
  · have hmod : (i + n) % W = n + i := by rw [Nat.mod_eq_of_lt (by omega), Nat.add_comm]
    simp [hwrap, hmod]
  · have hmod : (i + n) % W = i - (W - n) := by
      rw [Nat.mod_eq_sub_mod (by omega), Nat.mod_eq_of_lt (by omega)]
      omega
    simp [hwrap, hi, hmod]

/-! ### One application of `G` (R164) -/

/-- The four positions `G` works on. -/
def GPos.positions (g : GPos) : List (Fin 16) := [g.a, g.b, g.c, g.d]

/-- The four words `G` computes. -/
def mixAt {W : Nat} (p : Params W) (m : Vec16 W) (r : Nat) (x : Vec16 W) (g : GPos) : Quad W :=
  mix p.rot ⟨x[g.a], x[g.b], x[g.c], x[g.d]⟩ (gInputX p m r g.i) (gInputY p m r g.i)

theorem getElem_applyG {W : Nat} (p : Params W) (m : Vec16 W) (r : Nat) (x : Vec16 W) (g : GPos) (k : Fin 16) :
    (applyG p m r x g)[k] = if g.d = k then (mixAt p m r x g).d else if g.c = k then (mixAt p m r x g).c
      else if g.b = k then (mixAt p m r x g).b else if g.a = k then (mixAt p m r x g).a else x[k] := by
  simp only [applyG, mixAt, Fin.getElem_fin, Vector.getElem_set, Fin.ext_iff]

/-- `G` leaves the twelve other words as they are. -/
theorem getElem_applyG_of_not_mem {W : Nat} (p : Params W) (m : Vec16 W) (r : Nat) (x : Vec16 W) {g : GPos} {k : Fin 16}
    (hk : k ∉ g.positions) : (applyG p m r x g)[k] = x[k] := by
  simp only [GPos.positions, List.mem_cons, List.not_mem_nil, or_false, not_or, eq_comm (a := k)] at hk
  obtain ⟨ha, hb, hc, hd⟩ := hk
  rw [getElem_applyG, if_neg hd, if_neg hc, if_neg hb, if_neg ha]

theorem mixAt_congr {W : Nat} {p : Params W} {m m' : Vec16 W} {r r' : Nat} {x y : Vec16 W} {g : GPos}
    (hX : gInputX p m r g.i = gInputX p m' r' g.i) (hY : gInputY p m r g.i = gInputY p m' r' g.i)
    (hxy : ∀ k ∈ g.positions, x[k] = y[k]) : mixAt p m r x g = mixAt p m' r' y g := by
  rw [mixAt, mixAt, hX, hY, hxy g.a (by simp [GPos.positions]), hxy g.b (by simp [GPos.positions]),
    hxy g.c (by simp [GPos.positions]), hxy g.d (by simp [GPos.positions])]

/-- What `G` writes depends on its four words and its two inputs only. -/
theorem getElem_applyG_congr {W : Nat} {p : Params W} {m m' : Vec16 W} {r r' : Nat} {x y : Vec16 W} {g : GPos}
    (hX : gInputX p m r g.i = gInputX p m' r' g.i) (hY : gInputY p m r g.i = gInputY p m' r' g.i)
    (hxy : ∀ k ∈ g.positions, x[k] = y[k]) {k : Fin 16} (hk : k ∈ g.positions) :
    (applyG p m r x g)[k] = (applyG p m' r' y g)[k] := by
  rw [getElem_applyG, getElem_applyG, mixAt_congr hX hY hxy, hxy k hk]

/-- Settles O50, by the frame of `G` and what its four words depend on. -/
theorem gTouchesItsFourWordsOnly : Obligations.GTouchesItsFourWordsOnly :=
  fun v m _ r _ x _ _ _ => ⟨fun _ hk => getElem_applyG_of_not_mem v.params m r x hk,
    fun hX hY hxy _ hk => getElem_applyG_congr hX hY hxy hk⟩

/-! ### Columns and diagonals (R165) -/

/-- On a position of `g` that `g'` does not have, doing `g'` after `g` or before it makes no difference. -/
theorem getElem_applyG_comm_of_mem {W : Nat} (p : Params W) (m : Vec16 W) (r : Nat) (x : Vec16 W) {g g' : GPos}
    (hdisj : g.positions.Disjoint g'.positions) {k : Fin 16} (hk : k ∈ g.positions) :
    (applyG p m r (applyG p m r x g) g')[k] = (applyG p m r (applyG p m r x g') g)[k] := by
  have hsame : ∀ j ∈ g.positions, x[j] = (applyG p m r x g')[j] :=
    fun j hj => (getElem_applyG_of_not_mem p m r x (hdisj hj)).symm
  rw [getElem_applyG_of_not_mem p m r (applyG p m r x g) (hdisj hk), getElem_applyG_congr rfl rfl hsame hk]

/-- Two applications of `G` without a common position commute. -/
theorem applyG_comm_of_disjoint {W : Nat} (p : Params W) (m : Vec16 W) (r : Nat) (x : Vec16 W) {g g' : GPos}
    (hdisj : g.positions.Disjoint g'.positions) :
    applyG p m r (applyG p m r x g) g' = applyG p m r (applyG p m r x g') g := by
  have hword : ∀ k : Fin 16,
      (applyG p m r (applyG p m r x g) g')[k] = (applyG p m r (applyG p m r x g') g)[k] := by
    intro k
    by_cases hg : k ∈ g.positions
    · exact getElem_applyG_comm_of_mem p m r x hdisj hg
    by_cases hg' : k ∈ g'.positions
    · exact (getElem_applyG_comm_of_mem p m r x hdisj.symm hg').symm
    · simp only [getElem_applyG_of_not_mem, hg, hg', not_false_eq_true]
  exact Vector.ext fun k hk => hword ⟨k, hk⟩

theorem columns_or_diagonals_eq_or_disjoint : ∀ group ∈ [roundSchedule.take 4, roundSchedule.drop 4], ∀ g ∈ group, ∀ g' ∈ group,
    g = g' ∨ g.positions.Disjoint g'.positions := by
  simp only [List.disjoint_left]
  decide

/-- Settles O51: two columns, or two diagonals, are the same one or have no position in common. -/
theorem columnsCommuteAndDiagonalsCommute : Obligations.ColumnsCommuteAndDiagonalsCommute := by
  intro v m r x g g' hgroup
  have hpair : g = g' ∨ g.positions.Disjoint g'.positions := by
    obtain ⟨hg, hg'⟩ | ⟨hg, hg'⟩ := hgroup
    · exact columns_or_diagonals_eq_or_disjoint _ (by simp) g hg g' hg'
    · exact columns_or_diagonals_eq_or_disjoint _ (by simp) g hg g' hg'
  obtain rfl | hdisj := hpair
  · rfl
  · exact applyG_comm_of_disjoint v.params m r x hdisj

/-! ### The schedule (R157, R166) -/

@[simp] theorem Variant_sigma (v : Variant) : v.params.sigma = sigma := by cases v <;> rfl

theorem sigma_count_eq_one : ∀ (i : Fin 10) (k : Fin 16), sigma[i].toList.count k = 1 := by decide

theorem sigmaRow_add_ten {W : Nat} (p : Params W) (r : Nat) : sigmaRow p (r + 10) = sigmaRow p r := by
  simp only [sigmaRow, Nat.add_mod_right]

/-- Settles O52: the ten rows are those of the table `SIGMA`, and the row depends on `r mod 10`. -/
theorem scheduleRowsArePermutations : Obligations.ScheduleRowsArePermutations := by
  intro v r k
  refine ⟨?_, sigmaRow_add_ten v.params r⟩
  simp only [sigmaRow, Variant_sigma]
  exact sigma_count_eq_one ⟨r % 10, Nat.mod_lt r (by decide)⟩ k

/-! ### The final flag (R163) -/

@[simp] theorem injectFlag_false {W : Nat} (mask : Vector (Word W) 4) (x : Vec16 W) : injectFlag mask false x = x := rfl

theorem getElem_injectFlag_true_low {W : Nat} (mask : Vector (Word W) 4) (x : Vec16 W) (k : Fin 12) :
    (injectFlag mask true x)[k.val] = x[k.val] := by
  have hne : ∀ j, 12 ≤ j → j ≠ k.val := by omega
  simp [injectFlag, hne]

theorem getElem_injectFlag_true_high {W : Nat} (mask : Vector (Word W) 4) (x : Vec16 W) (k : Fin 4) :
    (injectFlag mask true x)[12 + k.val] = x[12 + k.val] ^^^ mask[k] := by
  fin_cases k <;> simp [injectFlag]

theorem injectFlag_zero_mask {W : Nat} (final : Bool) (x : Vec16 W) : injectFlag #v[0, 0, 0, 0] final x = x := by
  cases final <;> simp [injectFlag]

/-- Settles O53: the decided mask is zero, so the injection leaves the working vector as it is for both flags. -/
theorem finalFlagInjection : Obligations.FinalFlagInjection := by
  refine ⟨fun v mask x => ⟨injectFlag_false mask x, getElem_injectFlag_true_low mask x, getElem_injectFlag_true_high mask x⟩, ?_⟩
  intro v h B t0 t1 s
  simp only [compress, Variant_flagMask, injectFlag_zero_mask]

end Sys2Proof.Machine
end

/-! ## Exceptions (60_exceptions.md): how commands answer, what an error leaves alone, and engines that share nothing -/

section
namespace Sys2Proof.Machine

/-! ### The answer of a command (R86, R194) -/

/-- How a command word is answered: not yet, by an `UPDATE` short of payload; with an error, which leaves the registers; with the
success of `INIT` or `UPDATE`; or, for a `FINAL`, with a digest. -/
theorem execWord_answer_cases {cw : BitVec 32} {s t : State} (h : execWord cw s = .next t) :
    t.offer = s.offer ∨
    (t.toRegs = s.toRegs ∧ ∃ e, t.offer = s.offer ++ [.rsp (errorResponse e)]) ∨
    t.offer = s.offer ++ [.rsp okResponse] ∨
    (decode cw = .ok .final ∧ ∃ (n : Nat) (d : List Byte), t.offer = s.offer ++ .rsp (digestResponse n) :: d.map .dout) := by
  rcases execWord_cases cw s with ⟨-, -, he⟩ | ⟨i, hd, hi⟩
  · cases he.symm.trans h
    exact .inr (.inl ⟨rfl, _, rfl⟩)
  rw [hi] at h
  cases i with
  | init size =>
    rcases execInit_cases h with ⟨-, rfl⟩ | ⟨v, -, rfl⟩
    · exact .inr (.inl ⟨rfl, _, rfl⟩)
    · exact .inr (.inr (.inl rfl))
  | update len =>
    rcases execUpdate_cases h with ⟨-, rfl⟩ | ⟨-, -, rfl⟩ | ⟨v, -, -, -, rfl⟩
    · exact .inl rfl
    · exact .inr (.inl ⟨rfl, _, rfl⟩)
    · exact .inr (.inr (.inl rfl))
  | final =>
    rcases execFinal_cases h with ⟨-, rfl⟩ | ⟨v, -, -, rfl⟩
    · exact .inr (.inl ⟨rfl, _, rfl⟩)
    · exact .inr (.inr (.inr ⟨hd, _, _, List.append_assoc ..⟩))

/-- No command word touches what belongs to the host. -/
theorem execWord_sameHost {cw : BitVec 32} {s t : State} (h : execWord cw s = .next t) : SameHost s t := by
  obtain ⟨hcmd, hrsp, hdout, hrst, htaken, hresets, -⟩ := execWord_frame h
  exact ⟨hcmd, hrsp, hdout, hrst, htaken, hresets⟩

theorem errorResponse_dlen (e : ErrorCause) : (errorResponse e).toNat / 2 ^ 8 = 0 := by cases e <;> rfl

theorem okResponse_status : okResponse.toNat % 16 = 0 := rfl

theorem digestResponse_status (n : Nat) : (digestResponse n).toNat % 16 = 0 := by
  have hstatus : statusOk.toNat = 0 := rfl
  rw [digestResponse, responseWord_toNat, hstatus]
  omega

/-- Settles O39: of the four answers only the error entry has a status other than 0. -/
theorem errorsWriteNoRegister : Obligations.ErrorsWriteNoRegister := by
  intro cw s t w l h hoffer hstatus
  rcases execWord_answer_cases h with hk | ⟨hregs, e, herr⟩ | hok | ⟨-, n, d, hdig⟩
  · cases List.self_eq_append_right.mp (hk.symm.trans hoffer)
  · cases List.append_cancel_left (herr.symm.trans hoffer)
    exact ⟨hregs, rfl, errorResponse_dlen e, execWord_sameHost h⟩
  · cases List.append_cancel_left (hok.symm.trans hoffer)
    exact absurd okResponse_status hstatus
  · cases List.append_cancel_left (hdig.symm.trans hoffer)
    exact absurd (digestResponse_status n) hstatus

/-! ### No partial digest (R197) -/

theorem length_finalize_digest (v : Variant) (r : Regs) : (finalize v.params r).2.length = v.size.toNat / 8 := by
  rw [finalize_digest, finalizeFrom_digest_length, Variant_digestBytes]

/-- A response word adds no digest byte. -/
theorem digestBytesOf_concat_rsp (l : List OutEvent) (w : BitVec 16) : digestBytesOf (l ++ [.rsp w]) = digestBytesOf l := by
  rw [digestBytesOf_append]
  exact List.append_nil _

theorem digestBytesOf_finalAnswer (v : Variant) (r : Regs) : digestBytesOf (finalAnswer v r) = (finalize v.params r).2 := by
  rw [finalAnswer, digestBytesOf_rsp_cons, digestBytesOf_digest]

/-- Settles O38: the first `FINAL` leaves a dead engine, and of the four answers only that of a `FINAL` has digest bytes. -/
theorem digestIsSentOnceByFinalOnly : Obligations.DigestIsSentOnceByFinalOnly := by
  refine ⟨fun v s hlive => ?_, fun cw s t hcw h => ?_⟩
  · have ⟨_, hvar, _, _⟩ := hlive
    refine ⟨_, _, (finalize v.params s.toRegs).2, exec_final_of_liveAs hlive, execFinal_of_dead rfl, rfl, ?_, ?_, rfl⟩
    · rw [afterFinal_offer, digestBytesOf_append, digestBytesOf_finalAnswer]
    · rw [hvar, length_finalize_digest]
  · rcases execWord_answer_cases h with hk | ⟨-, e, herr⟩ | hok | ⟨hfinal, -⟩
    · rw [hk]
    · rw [herr, digestBytesOf_concat_rsp]
    · rw [hok, digestBytesOf_concat_rsp]
    · exact absurd hfinal hcw

/-! ### The three errors and their priority (R191 to R193, R195) -/

theorem execWord_of_decode {cw : BitVec 32} {i : Instr} (h : decode cw = .ok i) (s : State) : execWord cw s = exec i s := by
  rw [execWord, h]

/-- An opcode of 1 over zero bits is an `INIT` with the low ten bits as size (R82). -/
theorem decode_of_init_bits {cw : BitVec 32} (h : cw.toNat / 2 ^ 10 = 2 ^ 18) :
    decode cw = .ok (.init (BitVec.ofNat 10 cw.toNat)) := by
  rw [decode_eq, if_pos (by omega), if_neg (by omega)]

/-- An opcode of 2 is an `UPDATE` with the low 28 bits as length (R83). -/
theorem decode_of_update_bits {cw : BitVec 32} (h : cw.toNat / 2 ^ 28 = 2) :
    decode cw = .ok (.update (BitVec.ofNat 28 cw.toNat)) := by
  rw [decode_eq, if_neg (by omega), if_pos h]

/-- Settles O40: a reserved word is refused before any state is read, and `INIT` does not read `fin`. -/
theorem errorPriority : Obligations.ErrorPriority := by
  refine fun cw s => ⟨fun hop hzero => ?_, fun hop hsize => ?_, fun hop harg => ?_, fun hop hdead hlen => ?_⟩
  · exact ⟨_, execWord_of_reserved (.inr (.inr (.inl ⟨hop, hzero⟩))) s, rfl⟩
  · have hnone : variantOf (BitVec.ofNat 10 cw.toNat) = none := variantOf_of_not_size (by rwa [BitVec.toNat_ofNat])
    exact ⟨_, (execWord_of_decode (decode_of_init_bits hop) s).trans (execInit_of_none hnone s), rfl⟩
  · exact ⟨_, execWord_of_reserved (.inr (.inr (.inr ⟨hop, harg⟩))) s, rfl⟩
  · have hpayload : (BitVec.ofNat 28 cw.toNat).toNat ≤ s.din.length := by rwa [BitVec.toNat_ofNat]
    exact ⟨_, (execWord_of_decode (decode_of_update_bits hop) s).trans (execUpdate_of_dead hdead hpayload), rfl⟩

/-- Settles O33: the error entry of a dead engine, and the two answers of `INIT`, whose status is 2 or 0. -/
theorem deadEngineAnswersInvalidState : Obligations.DeadEngineAnswersInvalidState := by
  refine ⟨fun len s hdead hlen => ?_, fun s hdead => ?_, fun size s t h hoffer => ?_⟩
  · have hx : exec (.update len) s = _ := execUpdate_of_dead hdead hlen
    exact ⟨_, hx, rfl, rfl, rfl, rfl, exec_sameHost hx⟩
  · have hx : exec .final s = _ := execFinal_of_dead hdead
    exact ⟨_, hx, rfl, rfl, rfl, rfl, exec_sameHost hx⟩
  · rcases execInit_cases h with ⟨-, rfl⟩ | ⟨v, -, rfl⟩
    · exact absurd (List.append_cancel_left hoffer) (by decide)
    · exact absurd (List.append_cancel_left hoffer) (by decide)

/-! ### Idle engines and several engines (R204, R206) -/

/-- Settles O8: of the five things a step can be, only the two that let the host take output are left. -/
theorem idleEngineHoldsItsRegisters : Obligations.IdleEngineHoldsItsRegisters := by
  intro s hr hw hc
  refine ⟨?_, State.drain_toRegs s⟩
  rcases step_cases s with ⟨hr', -⟩ | ⟨-, -, hs⟩ | ⟨len, -, -, hw', -⟩ | ⟨-, -, -, -, hs⟩ | ⟨cw, rest, -, -, -, hc', -⟩
  · cases hr.symm.trans hr'
  · exact hs
  · cases hw.symm.trans hw'
  · exact hs
  · cases hc.symm.trans hc'

/-- What a step of engine `k` does to a platform: nothing where there is no engine `k`, else the step of that engine in its place. -/
theorem stepEngine_cases {k : Nat} {engines engines' : Platform} (h : Platform.stepEngine k engines = .next engines') :
    (engines[k]? = none ∧ engines' = engines) ∨
    (∃ s t, engines[k]? = some s ∧ step s = .next t ∧ engines' = engines.set k t) := by
  unfold Platform.stepEngine at h
  cases hk : engines[k]? with
  | none =>
    rw [hk] at h
    cases h
    exact .inl ⟨rfl, rfl⟩
  | some s =>
    cases hs : step s with
    | next t =>
      simp only [hk, hs] at h
      cases h
      exact .inr ⟨s, t, rfl, hs, rfl⟩
    | fault f => simp [hk, hs] at h
    | refused r => simp [hk, hs] at h

/-- Settles O57: the step writes place `k` of the list of engines. -/
theorem enginesShareNothing : Obligations.EnginesShareNothing := by
  intro k engines engines' h
  rcases stepEngine_cases h with ⟨hnone, rfl⟩ | ⟨s, t, hsome, hs, rfl⟩
  · exact ⟨fun _ _ => rfl, fun s hsome => nomatch hnone.symm.trans hsome⟩
  · obtain ⟨hk, -⟩ := List.getElem?_eq_some_iff.mp hsome
    refine ⟨fun j hj => List.getElem?_set_ne hj.symm, fun s' hs' => ?_⟩
    cases hsome.symm.trans hs'
    exact ⟨t, hs, List.getElem?_set_self hk⟩

end Sys2Proof.Machine
end

/-! ## Reset and hazards (70_reset_and_hazards.md): reset, output the host has not taken, and commands in progress -/

section
namespace Sys2Proof.Machine

/-! ### A command in progress (R224) -/

/-- The step of an engine whose host has taken all output and whose `UPDATE` is in progress. -/
theorem step_of_waiting {s : State} {len : BitVec 28} (hr : s.rst = false) (hw : s.waiting = some len) (ho : s.drain.offer = []) :
    step s = exec (.update len) s.drain := by
  simp [step, commandLoop, hr, ho, resumeOrRun, hw]

/-- Settles O6: neither a reset nor output not taken comes before the command in progress. -/
theorem stepResumesWaitingUpdate : Obligations.StepResumesWaitingUpdate := fun _ _ => step_of_waiting

theorem awaitPayload_of_waiting {s : State} {len : BitVec 28} (hw : s.waiting = some len) : s.awaitPayload len = s := by
  rw [State.awaitPayload, ← hw]

/-- While the payload of an `UPDATE` in progress is short, a step leaves the whole state as it is. -/
theorem step_of_short_payload {s : State} {len : BitVec 28} (hr : s.rst = false) (hw : s.waiting = some len) (ho : s.offer = [])
    (hl : s.din.length < len.toNat) : step s = .next s := by
  have hdrain : s.drain = s := drain_of_offer_nil ho
  rw [step_of_waiting hr hw (hdrain.symm ▸ ho), hdrain]
  exact (execUpdate_of_short hl).trans (congrArg _ (awaitPayload_of_waiting hw))

theorem dinReady_eq_true {s : State} : s.dinReady = true ↔ s.rst = false ∧ ∃ len, s.waiting = some len := by
  simp [State.dinReady, Option.isSome_iff_exists]

theorem cmdReady_eq_false {s : State} : s.cmdReady = false ↔ s.rst = true ∨ s.waiting ≠ none ∨ s.offer ≠ [] := by
  rw [← Bool.not_eq_true, cmdReady_eq_true, not_and_or, not_and_or, Bool.not_eq_false]

/-- Settles O34: the `UPDATE` is left in progress, and every step finds its payload as short as before. -/
theorem updateWaitsForItsPayload : Obligations.UpdateWaitsForItsPayload := by
  intro len s hr ho hl
  have hx : exec (.update len) s = .next (s.awaitPayload len) := execUpdate_of_short hl
  exact ⟨_, hx, rfl, ho, rfl, exec_sameHost hx, dinReady_eq_true.mpr ⟨hr, len, rfl⟩,
    cmdReady_eq_false.mpr (.inr (.inl (Option.some_ne_none len))), fun ws => step_of_short_payload hr rfl ho hl⟩

/-! ### Output the host has not taken (R225) -/

/-- The host takes nothing where its pins do not let the first event through. -/
theorem drain_of_not_accepts {s : State} {e : OutEvent} {l : List OutEvent} (ho : s.offer = e :: l) (he : s.accepts e = false) :
    s.drain = s := by
  have hcount : s.readyCount = 0 := by simp [State.readyCount, ho, he]
  simp [State.drain, hcount, State.hostTake]

/-- The step of an engine with output left on offer. -/
theorem step_of_output {s : State} (hr : s.rst = false) (ho : s.drain.offer ≠ []) : step s = .next s.drain := by
  simp [step, commandLoop, hr, ho]

/-- Settles O9: the host takes nothing, and what is left on offer keeps the engine from anything else. -/
theorem untakenOutputHoldsTheEngine : Obligations.UntakenOutputHoldsTheEngine := by
  intro s e l hr ho he
  have hdrain : s.drain = s := drain_of_not_accepts ho he
  have hne : s.offer ≠ [] := ho ▸ List.cons_ne_nil e l
  refine ⟨?_, cmdReady_eq_false.mpr (.inr (.inr hne))⟩
  rw [step_of_output hr (hdrain.symm ▸ hne), hdrain]

/-- The run's output and what the host has taken of it go on from what they were. -/
def OutputGoesOn (s t : State) : Prop := s.output <+: t.output ∧ s.taken <+: t.taken

theorem OutputGoesOn.trans {s t u : State} (h : OutputGoesOn s t) (h' : OutputGoesOn t u) : OutputGoesOn s u :=
  ⟨h.1.trans h'.1, h.2.trans h'.2⟩

theorem drain_outputGoesOn (s : State) : OutputGoesOn s s.drain :=
  ⟨by rw [output_drain], List.prefix_append ..⟩

/-- A command word only adds to what is on offer. -/
theorem execWord_outputGoesOn {cw : BitVec 32} {s t : State} (h : execWord cw s = .next t) : OutputGoesOn s t := by
  obtain ⟨-, -, -, -, htaken, -, l, hoffer⟩ := execWord_frame h
  exact ⟨⟨l, (output_of_answer htaken.symm hoffer).symm⟩, by rw [htaken]⟩

theorem exec_outputGoesOn {i : Instr} {s t : State} (h : exec i s = .next t) : OutputGoesOn s t :=
  execWord_outputGoesOn ((execWord_encode i s).trans h)

/-- A step without a reset takes nothing back: not the host's taking of output, nor the command that may come after it. -/
theorem step_outputGoesOn {s t : State} (hr : s.rst = false) (h : step s = .next t) : OutputGoesOn s t := by
  have hdrain := drain_outputGoesOn s
  rcases step_next_cases h with ⟨hr', -⟩ | rfl | ⟨len, -, hx⟩ | ⟨cw, -, -, hx⟩
  · cases hr.symm.trans hr'
  · exact hdrain
  · exact hdrain.trans (exec_outputGoesOn hx)
  · exact OutputGoesOn.trans (t := s.drain.withCmd t.cmd) hdrain (execWord_outputGoesOn hx)

/-- Settles O12: a prefix is what the rest is appended to. -/
theorem outputOnlyGrows : Obligations.OutputOnlyGrows := by
  intro s t hr h
  obtain ⟨hout, htaken⟩ := step_outputGoesOn hr h
  exact ⟨List.prefix_iff_exists_eq_append.mp hout, List.prefix_iff_exists_eq_append.mp htaken⟩

/-! ### No step stops (R228) -/

/-- A command stops only on a live engine that fails its check, and the invariant makes the check succeed. -/
theorem exec_next_of_engineInv {s : State} (i : Instr) (hs : EngineInv s) : ∃ t, exec i s = .next t := by
  by_contra hstop
  obtain ⟨f, -, hf, hv⟩ := exec_stops (not_exists.mp hstop)
  obtain ⟨v, -, hvar, hlen, -⟩ := hs hf
  cases hv.symm.trans (liveVariant_eq_ok.mpr ⟨hvar, hlen⟩)

theorem execWord_next_of_engineInv {s : State} (cw : BitVec 32) (hs : EngineInv s) : ∃ t, execWord cw s = .next t := by
  rcases execWord_cases cw s with ⟨-, -, he⟩ | ⟨i, -, hi⟩
  · exact ⟨_, he⟩
  · exact hi ▸ exec_next_of_engineInv i hs

/-- Settles O20: of the five things a step can be, two run a command, and they run it on registers that meet the invariant. -/
theorem invariantStatesNeverStop : Obligations.InvariantStatesNeverStop := by
  intro s hs
  unfold SafeStep
  rcases step_cases s with ⟨-, hx⟩ | ⟨-, -, hx⟩ | ⟨len, -, -, -, hx⟩ | ⟨-, -, -, -, hx⟩ |
    ⟨cw, rest, -, -, -, -, hx⟩
  · exact ⟨_, hx⟩
  · exact ⟨_, hx⟩
  · exact hx ▸ exec_next_of_engineInv (s := s.drain) (.update len) hs
  · exact ⟨_, hx⟩
  · exact hx ▸ execWord_next_of_engineInv (s := s.drain.withCmd rest) cw hs

/-! ### Reset (R220) -/

theorem step_of_reset {s : State} (h : s.rst = true) : step s = .next s.hardReset := by
  simp [step, commandLoop, h]

/-- A reset only withdraws output from the end: what the host has not taken by then. -/
theorem output_hardReset_prefix (s : State) : s.hardReset.output <+: s.output := by
  rw [State.output, State.hardReset_offer, List.append_nil, State.hardReset_taken, State.output, List.prefix_append_right_inj]
  exact List.take_prefix ..

/-- Settles O15: the state a reset leaves, and what it loses of the output on offer and of the payload. -/
theorem resetStepKillsTheEngine : Obligations.ResetStepKillsTheEngine := by
  intro s h
  have hout := List.prefix_iff_exists_eq_append.mp (output_hardReset_prefix s)
  refine ⟨_, step_of_reset h, rfl, rfl, rfl, rfl, rfl, rfl, rfl, hout, fun len hw => ?_, fun hw => ?_⟩
  · exact ⟨s.payloadLost, payloadLost_le hw, rfl⟩
  · rw [State.hardReset_din, payloadLost_of_waiting_none hw, List.drop_zero]

/-- Settles O16: each pin is gated by `rst`. -/
theorem assertedResetSilencesThePins : Obligations.AssertedResetSilencesThePins := by
  intro s h
  have hdin : s.dinReady = false := by simp [State.dinReady, h]
  exact ⟨if_pos h, if_pos h, hdin, cmdReady_eq_false.mpr (.inl h)⟩

end Sys2Proof.Machine
end
